-- ==== Sys2Proof/Word.lean ====
section
/-! DEFINITION. The widths of the machine (spec 00_scope.md R4, R5): words, bytes, the 16-bit immediate, the
five-bit and six-bit fields of an instruction. -/

namespace Sys2Proof

/-- A general register, `HI`, `LO`, `pc`, an instruction word, an address: a 32-bit pattern (R4). -/
abbrev Word := BitVec 32

/-- A byte of memory: 8 bits (R4; PRESUMED by the spec from general knowledge, log 22). -/
abbrev Byte := BitVec 8

/-- The immediate field of an I-type word (R52). -/
abbrev Half := BitVec 16

/-- A register number: every five-bit value is a valid one (R56). -/
abbrev RegIdx := BitVec 5

/-- The `shamt` field (R51). -/
abbrev Shamt := BitVec 5

/-- The `opcode` and `funct` fields (R51, R52). -/
abbrev Six := BitVec 6

end Sys2Proof
end

