-- ==== Sys2Proof/Syntax.lean ====
section
/-! DEFINITION. The instructions (30_encoding.md R57, R58: 43 of them, one constructor a row of
spec/opcode_table.json) and the two field layouts the decoder extracts (R51 to R53). Arguments are the fields an
instruction USES, in the operand order of R62 and R63; a field it ignores (R54) is not part of it. -/

namespace Sys2Proof

/-- What field extraction gives (R53): a tagged variant of the R-type fields and the I-type fields, not yet
checked to be one of the 43 instructions. -/
inductive Fields where
  | r (rs rt rd : RegIdx) (shamt : Shamt) (funct : Six)
  | i (opcode : Six) (rs rt : RegIdx) (imm : Half)
  deriving DecidableEq, Repr

/-- The 43 instructions. `break` is `brk` here, since `break` is a word of Lean's. -/
inductive Instr where
  -- shifts, 41_shifts.md
  | sll (rd rt : RegIdx) (shamt : Shamt)
  | srl (rd rt : RegIdx) (shamt : Shamt)
  | sra (rd rt : RegIdx) (shamt : Shamt)
  | sllv (rd rt rs : RegIdx)
  | srlv (rd rt rs : RegIdx)
  | srav (rd rt rs : RegIdx)
  -- register jumps, 42_jumps.md
  | jr (rs : RegIdx)
  | jalr (rs : RegIdx)
  -- conditional moves, 43_cond_move.md
  | movz (rd rs rt : RegIdx)
  | movn (rd rs rt : RegIdx)
  -- breakpoint, 44_break.md
  | brk (rs rt rd : RegIdx) (shamt : Shamt)
  -- HI/LO moves, multiply, divide, 45_hilo_muldiv.md
  | mfhi (rd : RegIdx)
  | mthi (rs : RegIdx)
  | mflo (rd : RegIdx)
  | mtlo (rs : RegIdx)
  | mult (rs rt : RegIdx)
  | multu (rs rt : RegIdx)
  | div (rs rt : RegIdx)
  | divu (rs rt : RegIdx)
  -- register ALU, 46_alu_reg.md
  | add (rd rs rt : RegIdx)
  | addu (rd rs rt : RegIdx)
  | sub (rd rs rt : RegIdx)
  | subu (rd rs rt : RegIdx)
  | and (rd rs rt : RegIdx)
  | or (rd rs rt : RegIdx)
  | xor (rd rs rt : RegIdx)
  | nor (rd rs rt : RegIdx)
  | slt (rd rs rt : RegIdx)
  | sltu (rd rs rt : RegIdx)
  -- conditional traps, 47_cond_trap.md
  | tge (rs rt : RegIdx)
  | tgeu (rs rt : RegIdx)
  | tlt (rs rt : RegIdx)
  | tltu (rs rt : RegIdx)
  | teq (rs rt : RegIdx)
  | tne (rs rt : RegIdx)
  -- immediate ALU, 48_alu_imm.md
  | addi (rt rs : RegIdx) (imm : Half)
  | addiu (rt rs : RegIdx) (imm : Half)
  | slti (rt rs : RegIdx) (imm : Half)
  | sltiu (rt rs : RegIdx) (imm : Half)
  | andi (rt rs : RegIdx) (imm : Half)
  | ori (rt rs : RegIdx) (imm : Half)
  | xori (rt rs : RegIdx) (imm : Half)
  | lui (rt rs : RegIdx) (imm : Half)
  deriving DecidableEq, Repr

end Sys2Proof
end

