-- ==== Sys2Proof/Decode.lean ====
section
/-! DEFINITION. The decoder (30_encoding.md R53, R54, R57, R58, R61) and, after it, the encoder (R65), written from
the same layouts. Bit positions: the spec's decision D1 (R51, R52), log 6. -/

namespace Sys2Proof

/-! ### Field extraction (R51, R52, R53) -/

/-- `w[31:26]`. -/
def opcodeOf (w : Word) : Six := w.extractLsb' 26 6

/-- `w[25:21]`. -/
def rsOf (w : Word) : RegIdx := w.extractLsb' 21 5

/-- `w[20:16]`. -/
def rtOf (w : Word) : RegIdx := w.extractLsb' 16 5

/-- `w[15:11]`. -/
def rdOf (w : Word) : RegIdx := w.extractLsb' 11 5

/-- `w[10:6]`. -/
def shamtOf (w : Word) : Shamt := w.extractLsb' 6 5

/-- `w[5:0]`. -/
def functOf (w : Word) : Six := w.extractLsb' 0 6

/-- `w[15:0]`. -/
def immOf (w : Word) : Half := w.extractLsb' 0 16

/-- R53: opcode 0 selects the R-type fields, any other opcode the I-type fields; nothing is validated here. -/
def fieldsOf (w : Word) : Fields :=
  if opcodeOf w = 0#6 then .r (rsOf w) (rtOf w) (rdOf w) (shamtOf w) (functOf w)
  else .i (opcodeOf w) (rsOf w) (rtOf w) (immOf w)

/-! ### Selection of the instruction (R54, R57, R58) -/

/-- R58: the function codes under opcode 0; `none` is an Invalid operation (R61). -/
def selectR (rs rt rd : RegIdx) (shamt : Shamt) (funct : Six) : Option Instr :=
  match funct.toNat with
  | 0 => some (.sll rd rt shamt)
  | 2 => some (.srl rd rt shamt)
  | 3 => some (.sra rd rt shamt)
  | 4 => some (.sllv rd rt rs)
  | 6 => some (.srlv rd rt rs)
  | 7 => some (.srav rd rt rs)
  | 8 => some (.jr rs)
  | 9 => some (.jalr rs)
  | 10 => some (.movz rd rs rt)
  | 11 => some (.movn rd rs rt)
  | 13 => some (.brk rs rt rd shamt)
  | 16 => some (.mfhi rd)
  | 17 => some (.mthi rs)
  | 18 => some (.mflo rd)
  | 19 => some (.mtlo rs)
  | 24 => some (.mult rs rt)
  | 25 => some (.multu rs rt)
  | 26 => some (.div rs rt)
  | 27 => some (.divu rs rt)
  | 32 => some (.add rd rs rt)
  | 33 => some (.addu rd rs rt)
  | 34 => some (.sub rd rs rt)
  | 35 => some (.subu rd rs rt)
  | 36 => some (.and rd rs rt)
  | 37 => some (.or rd rs rt)
  | 38 => some (.xor rd rs rt)
  | 39 => some (.nor rd rs rt)
  | 42 => some (.slt rd rs rt)
  | 43 => some (.sltu rd rs rt)
  | 48 => some (.tge rs rt)
  | 49 => some (.tgeu rs rt)
  | 50 => some (.tlt rs rt)
  | 51 => some (.tltu rs rt)
  | 52 => some (.teq rs rt)
  | 54 => some (.tne rs rt)
  | _ => none

/-- R57: the opcodes of the I-type instructions; `none` is an Invalid operation (R61). -/
def selectI (opcode : Six) (rs rt : RegIdx) (imm : Half) : Option Instr :=
  match opcode.toNat with
  | 8 => some (.addi rt rs imm)
  | 9 => some (.addiu rt rs imm)
  | 10 => some (.slti rt rs imm)
  | 11 => some (.sltiu rt rs imm)
  | 12 => some (.andi rt rs imm)
  | 13 => some (.ori rt rs imm)
  | 14 => some (.xori rt rs imm)
  | 15 => some (.lui rt rs imm)
  | _ => none

/-- The instruction that extracted fields name (R54): by `funct` under opcode 0, by `opcode` otherwise. -/
def selectInstr : Fields → Option Instr
  | .r rs rt rd shamt funct => selectR rs rt rd shamt funct
  | .i opcode rs rt imm => selectI opcode rs rt imm

/-- The decoder on a word: one of the 43 instructions, or `none`, an Invalid operation (R59, R61). -/
def decodeWord (w : Word) : Option Instr := selectInstr (fieldsOf w)

/-! ### Bytes (20_memory.md R32, R33) -/

/-- Four bytes, the lowest-addressed first, composed little-endian: the word `b3 ++ b2 ++ b1 ++ b0`. -/
def wordOfBytes (b0 b1 b2 b3 : Byte) : Word := b3 ++ b2 ++ b1 ++ b0

/-- Byte `k` (0 to 3) of a word, the least significant first: the byte that lies at `addr + k`. -/
def byteOfWord (w : Word) (k : Nat) : Byte := w.extractLsb' (8 * k) 8

/-- Why a list of bytes is no instruction. -/
inductive DecodeError where
  /-- Fewer than four bytes: an instruction is one 32-bit word (30_encoding.md R50). -/
  | truncated
  /-- The word is none of the 43 instructions (R61). -/
  | invalidOperation (w : Word)
  deriving DecidableEq, Repr

/-- The decoder on bytes as memory holds them, lowest address first: the instruction and the bytes after it. -/
def decode : List Byte → Except DecodeError (Instr × List Byte)
  | b0 :: b1 :: b2 :: b3 :: rest =>
    match decodeWord (wordOfBytes b0 b1 b2 b3) with
    | some i => .ok (i, rest)
    | none => .error (.invalidOperation (wordOfBytes b0 b1 b2 b3))
  | _ => .error .truncated

/-- A word as memory holds it, lowest address first (20_memory.md R32). -/
def bytesOfWord (w : Word) : List Byte := [byteOfWord w 0, byteOfWord w 1, byteOfWord w 2, byteOfWord w 3]

/-! ### The encoder (R65): the inverse of R53 on the 43 patterns; an ignored field is encoded as 0 (R63) -/

/-- R51: `opcode = 0`, then `rs rt rd shamt funct`, most significant field first. -/
def packR (rs rt rd : RegIdx) (shamt : Shamt) (funct : Six) : Word :=
  0#6 ++ rs ++ rt ++ rd ++ shamt ++ funct

/-- R52: `opcode rs rt imm`, most significant field first. -/
def packI (opcode : Six) (rs rt : RegIdx) (imm : Half) : Word :=
  opcode ++ rs ++ rt ++ imm

/-- The word of an instruction. -/
def encode : Instr → Word
  | .sll rd rt shamt => packR 0 rt rd shamt 0
  | .srl rd rt shamt => packR 0 rt rd shamt 2
  | .sra rd rt shamt => packR 0 rt rd shamt 3
  | .sllv rd rt rs => packR rs rt rd 0 4
  | .srlv rd rt rs => packR rs rt rd 0 6
  | .srav rd rt rs => packR rs rt rd 0 7
  | .jr rs => packR rs 0 0 0 8
  | .jalr rs => packR rs 0 0 0 9
  | .movz rd rs rt => packR rs rt rd 0 10
  | .movn rd rs rt => packR rs rt rd 0 11
  | .brk rs rt rd shamt => packR rs rt rd shamt 13
  | .mfhi rd => packR 0 0 rd 0 16
  | .mthi rs => packR rs 0 0 0 17
  | .mflo rd => packR 0 0 rd 0 18
  | .mtlo rs => packR rs 0 0 0 19
  | .mult rs rt => packR rs rt 0 0 24
  | .multu rs rt => packR rs rt 0 0 25
  | .div rs rt => packR rs rt 0 0 26
  | .divu rs rt => packR rs rt 0 0 27
  | .add rd rs rt => packR rs rt rd 0 32
  | .addu rd rs rt => packR rs rt rd 0 33
  | .sub rd rs rt => packR rs rt rd 0 34
  | .subu rd rs rt => packR rs rt rd 0 35
  | .and rd rs rt => packR rs rt rd 0 36
  | .or rd rs rt => packR rs rt rd 0 37
  | .xor rd rs rt => packR rs rt rd 0 38
  | .nor rd rs rt => packR rs rt rd 0 39
  | .slt rd rs rt => packR rs rt rd 0 42
  | .sltu rd rs rt => packR rs rt rd 0 43
  | .tge rs rt => packR rs rt 0 0 48
  | .tgeu rs rt => packR rs rt 0 0 49
  | .tlt rs rt => packR rs rt 0 0 50
  | .tltu rs rt => packR rs rt 0 0 51
  | .teq rs rt => packR rs rt 0 0 52
  | .tne rs rt => packR rs rt 0 0 54
  | .addi rt rs imm => packI 8 rs rt imm
  | .addiu rt rs imm => packI 9 rs rt imm
  | .slti rt rs imm => packI 10 rs rt imm
  | .sltiu rt rs imm => packI 11 rs rt imm
  | .andi rt rs imm => packI 12 rs rt imm
  | .ori rt rs imm => packI 13 rs rt imm
  | .xori rt rs imm => packI 14 rs rt imm
  | .lui rt rs imm => packI 15 rs rt imm

/-! ### The opcode table's numbering -/

/-- The instruction the decoder reads from an instruction whose bits are `w`, numbered as spec/opcode_table.json
numbers them; bits above `nbits` are 0. The word goes through the decoder as the four bytes memory would hold. -/
def decodeTableWord (nbits w : Nat) : Option Instr :=
  match decode (bytesOfWord (BitVec.ofNat 32 (w % 2 ^ nbits))) with
  | .ok (i, _) => some i
  | .error _ => none

end Sys2Proof
end

