-- ==== Sys2Proof/Config.lean ====
section
/-! DEFINITION. What an implementation fixes and what the spec leaves free (00_scope.md R4). The three `opaque`
constants have no body that a proof can see: whatever is proved holds for every value they could have. -/

namespace Sys2Proof

/-- The largest legal `MEM_CAPACITY` (70_reset_and_hazards.md R192: 0 to 2^32). -/
def Config.maxCapacity : Nat := 4294967296

/-- The `MEM_CAPACITY` of `State.reset`. DESIGN CHOICE, log 3: the spec leaves it to the instantiator
(R4). Every other statement holds for every capacity, which `State` carries. -/
def Config.resetCapacity : Nat := Config.maxCapacity

/-- `DIV0`, the value of `HI` after a division by zero (R4, 45_hilo_muldiv.md R115). A FREE VALUE, log 12:
of the signedness, the dividend and the number of the draw, since it need not be the same on two executions. -/
opaque Config.div0Hi (signed : Bool) (dividend : Word) (draw : Nat) : Word

/-- `DIV0`, the value of `LO` after a division by zero (R4, R115). A FREE VALUE, log 12. -/
opaque Config.div0Lo (signed : Bool) (dividend : Word) (draw : Nat) : Word

/-- `BREAK_MID` at nonzero `rt` or `rd` (R4, 44_break.md R104). A FREE VALUE, log 13: left uninterpreted,
as R104 permits; at `rt = rd = 0` it is 0, which `Machine.breakMid` says. -/
opaque Config.breakMidRaw (rt rd : RegIdx) : Word

end Sys2Proof
end

