-- ==== Sys2Proof/Machine/State.lean ====
section
/-! DEFINITION. The state as plain data (10_state.md R10), its state after reset (R24, 70_reset_and_hazards.md R190),
and the reasons a step or a host operation stops. INVENTORY.md lists each field with its rule and reset value. -/

namespace Sys2Proof.Machine

/-- Memory as the list of its nonzero bytes in rising order of address; an unlisted address reads 0x00, the
value the spec gives memory at reset ("zero-initialized", R21). -/
abbrev Memory := List Host.Cell

/-- The canonical form: addresses strictly rising, no byte equal to what an unlisted address reads as. -/
abbrev Memory.wf (m : Memory) : Prop :=
  m.Pairwise (fun c d => c.1 < d.1) ∧ ∀ c ∈ m, c.2 ≠ 0#8

/-- The state. `x[0]` is a constant and has no field (R12). -/
structure State where
  /-- `x[1]` .. `x[31]` (R11); `x[i]` is at index `i - 1`, read and written by `State.reg`, `State.setReg` only. -/
  gpr : Vector Word 31
  /-- `HI` (R14). -/
  hi : Word
  /-- `LO` (R14). -/
  lo : Word
  /-- The program counter (R15): between steps the next fetch address, during execution already `npc`. -/
  pc : Word
  /-- The memory array (R21). -/
  mem : Memory
  /-- `MEM_CAPACITY`, set by construction and never changed (20_memory.md R30); carried here as data, log 3. -/
  memCapacity : Nat
  /-- The result code of the last completed step (60_exceptions.md R170), the model's own output field, log 1. -/
  result : Option Word
  /-- How many free values have been drawn, the model's own counter, log 12. -/
  draws : Nat
  deriving DecidableEq, Repr

/-- The error outcomes (60_exceptions.md R174). Each leaves the state as it was (R178). All are safe: a run that
meets one stops, where the hardware would answer further operations from the unchanged state (log 2). -/
inductive Fault where
  /-- Raised by `step` when the fetched word `w` is none of the 43 instructions (R175). Safe. -/
  | invalidOperation (w : Word)
  /-- Raised by the fetch of `step` and by the host's memory accessors when the `n` bytes at `addr` are not all
  in memory (R176). Safe. -/
  | addressOutOfRange (addr : Word) (n : Nat)
  /-- Raised by the host's register accessors for an index above 31, never by an instruction (R177). Safe. -/
  | registerIndexOutOfRange (i : Nat)
  deriving DecidableEq, Repr

/-- Why an instruction has no meaning. No arm of `exec` raises it: all 43 instructions have their meaning. -/
inductive Refusal where
  /-- Raised by an arm of `exec` that has no meaning yet (none is left). Safe. -/
  | notModelled (mnemonic : String)
  deriving DecidableEq, Repr

/-- The machine right after reset, with no program given (R24, R190): memory all zero (stated), `pc` 0 (the
spec's D2, log 5), general registers, `HI` and `LO` 0 (the spec's D3, log 4), `MEM_CAPACITY` 2^32 (DESIGN CHOICE,
log 3), no result yet (log 1). -/
def State.reset : State where
  gpr := Vector.replicate 31 0#32
  hi := 0#32
  lo := 0#32
  pc := 0#32
  mem := []
  memCapacity := Config.resetCapacity
  result := none
  draws := 0

end Sys2Proof.Machine
end

