-- ==== Sys2Proof/Machine/Ops.lean ====
section
/-! DEFINITION. The named operations over registers and memory (00_scope.md R6), the three ways an instruction ends
(normal completion, a trap, a `break` payload: 60_exceptions.md R170 to R173), and the fetch and the advance of the
step (40_step_cycle.md R71).
There is no return from an exception to model beside `raiseTrap`: a trap saves nothing, changes no mode and
transfers control nowhere (R179), so nothing is restored and no instruction restores it (R182, R184). -/

namespace Sys2Proof.Machine

/-! ### Registers -/

/-- `x[i]` (10_state.md R12): 0 for `i = 0`, else the stored value. -/
def State.reg (s : State) (i : RegIdx) : Word :=
  if h : i = 0#5 then 0#32
  else s.gpr[i.toNat - 1]'(by
    have h0 : i.toNat ≠ 0 := fun hn => h (BitVec.eq_of_toNat_eq (by simpa using hn))
    have := i.isLt
    omega)

/-- `x[i] <- v` (R12): discarded for `i = 0`. -/
def State.setReg (s : State) (i : RegIdx) (v : Word) : State :=
  if h : i = 0#5 then s
  else { s with gpr := s.gpr.set (i.toNat - 1) v (by
    have h0 : i.toNat ≠ 0 := fun hn => h (BitVec.eq_of_toNat_eq (by simpa using hn))
    have := i.isLt
    omega) }

/-- `HI <- v` (R14). -/
def State.setHi (s : State) (v : Word) : State := { s with hi := v }

/-- `LO <- v` (R14). -/
def State.setLo (s : State) (v : Word) : State := { s with lo := v }

/-- `pc <- v`: all 32 bits, whatever the alignment or the range (R17). -/
def State.setPc (s : State) (v : Word) : State := { s with pc := v }

/-- The step returns `c` (log 1). -/
def State.setResult (s : State) (c : Word) : State := { s with result := some c }

/-- One free draw has been made (log 12). -/
def State.drawn (s : State) : State := { s with draws := s.draws + 1 }

/-! ### Memory (20_memory.md) -/

/-- The byte at address `k`; 0x00 where nothing is listed (R30). -/
def Memory.read : Memory → Nat → Byte
  | [], _ => 0#8
  | (a, b) :: m, k => if k = a then b else Memory.read m k

/-- Write one byte, keeping the canonical form: a zero byte is not listed. -/
def Memory.write : Memory → Nat → Byte → Memory
  | [], k, v => if v = 0#8 then [] else [(k, v)]
  | (a, b) :: m, k, v =>
    if k < a then (if v = 0#8 then (a, b) :: m else (k, v) :: (a, b) :: m)
    else if k = a then (if v = 0#8 then m else (k, v) :: m)
    else (a, b) :: Memory.write m k v

/-- `MemRead(addr, 4)` (R33): the four bytes at `k .. k + 3`, little-endian. -/
def Memory.readWord (m : Memory) (k : Nat) : Word :=
  wordOfBytes (m.read k) (m.read (k + 1)) (m.read (k + 2)) (m.read (k + 3))

/-- `MemWrite(addr, 4, v)` (R34): the four bytes at `k .. k + 3`, little-endian. -/
def Memory.writeWord (m : Memory) (k : Nat) (v : Word) : Memory :=
  (((m.write k (byteOfWord v 0)).write (k + 1) (byteOfWord v 1)).write (k + 2) (byteOfWord v 2)).write (k + 3)
    (byteOfWord v 3)

/-- `InRange(addr, n)` (R36): the sum in unbounded integers. -/
def State.inRange (s : State) (addr : Word) (n : Nat) : Bool := addr.toNat + n ≤ s.memCapacity

/-- Read a byte at a 32-bit address, or the error of R176. -/
def State.loadByte (s : State) (addr : Word) : Except Fault Byte :=
  if s.inRange addr 1 then .ok (s.mem.read addr.toNat) else .error (.addressOutOfRange addr 1)

/-- Read a word at a 32-bit address, aligned or not (R37), or the error of R176. -/
def State.loadWord (s : State) (addr : Word) : Except Fault Word :=
  if s.inRange addr 4 then .ok (s.mem.readWord addr.toNat) else .error (.addressOutOfRange addr 4)

/-- Write a byte at a 32-bit address, or the error of R176, which writes nothing (R36). -/
def State.storeByte (s : State) (addr : Word) (v : Byte) : Except Fault State :=
  if s.inRange addr 1 then .ok { s with mem := s.mem.write addr.toNat v } else .error (.addressOutOfRange addr 1)

/-- Write a word at a 32-bit address, aligned or not (R37), or the error of R176, which writes no byte (R36). -/
def State.storeWord (s : State) (addr : Word) (v : Word) : Except Fault State :=
  if s.inRange addr 4 then .ok { s with mem := s.mem.writeWord addr.toNat v }
  else .error (.addressOutOfRange addr 4)

/-! ### How an instruction ends -/

/-- `return c` (R6): the step completes with `Code(c)`. -/
def complete (c : Word) (s : State) : Host.Outcome State Fault Refusal := .next (s.setResult c)

/-- `raise Trap` (60_exceptions.md R172): the step completes with `Code(1)`; the instruction's destination is not
written, `pc` stays the already advanced one, nothing is saved (R179). The one operation every trap takes. -/
def raiseTrap (s : State) : Host.Outcome State Fault Refusal := complete 1#32 s

/-- Normal completion with one general register written: `x[rd] <- v`, `Code(0)` (R171). -/
def writeBack (rd : RegIdx) (v : Word) (s : State) : Host.Outcome State Fault Refusal := complete 0#32 (s.setReg rd v)

/-! ### The step's own parts (40_step_cycle.md R71) -/

/-- The fetch: the word at `pc`, or the error of R72. -/
def fetch (s : State) : Except Fault Word := s.loadWord s.pc

/-- `npc = trunc_32(u(a) + 4)` (R71); it wraps at the top of the address space (10_state.md R16, log 7). -/
def npc (a : Word) : Word := BitVec.ofNat 32 (a.toNat + 4)

/-- The advance, committed before execution (R71). -/
def State.advance (s : State) : State := s.setPc (npc s.pc)

end Sys2Proof.Machine
end

