-- ==== Sys2Proof/Machine/Operands.lean ====
section
/-! DEFINITION. The operand forms (30_encoding.md R55, R56): the three ways an immediate is widened and the two ways
a shift amount is taken. A register operand is `State.reg`; there is no other form (R56). -/

namespace Sys2Proof.Machine

/-- `sext_32(imm)`: `addi addiu slti sltiu` (R55). -/
def signExtended (imm : Half) : Word := imm.signExtend 32

/-- `zext_32(imm)`: `andi ori xori` (R55). -/
def zeroExtended (imm : Half) : Word := imm.zeroExtend 32

/-- `imm ++ v[15:0]`: `lui` (R55, 48_alu_imm.md R152). -/
def upperImmediate (imm : Half) (v : Word) : Word := imm ++ v.extractLsb' 0 16

/-- The amount of an immediate shift: the field, 0 to 31 (R56). -/
def amountOfField (shamt : Shamt) : Nat := shamt.toNat

/-- The amount of a variable shift: the low five bits of the register's value (R56). -/
def amountOfValue (v : Word) : Nat := (v.extractLsb' 0 5).toNat

end Sys2Proof.Machine
end

