-- ==== Sys2Proof/Machine/Flags.lean ====
section
/-! DEFINITION. The hardware has no flags (10_state.md R19). What other machines keep in flags is computed at the
point of use: the range check behind the overflow traps (46_alu_reg.md R121, R123, R131) and the comparisons. -/

namespace Sys2Proof.Machine

/-- The exact signed result lies in -2^31 .. 2^31 - 1: no overflow (R121). -/
def fitsSigned (t : Int) : Bool := -2147483648 ≤ t && t ≤ 2147483647

/-- `s(a) < s(b)`. -/
def lessSigned (a b : Word) : Bool := a.toInt < b.toInt

/-- `u(a) < u(b)`. -/
def lessUnsigned (a b : Word) : Bool := a.toNat < b.toNat

/-- 0x00000001 if the condition holds, else 0x00000000 (R129). -/
def boolWord (c : Bool) : Word := if c then 1#32 else 0#32

/-- End an instruction whose exact signed result is `t`: trap if it does not fit 32 bits, else write it to
`rd` (R121, R123, 48_alu_imm.md R144). -/
def trappingWrite (rd : RegIdx) (t : Int) (s : State) : Host.Outcome State Fault Refusal :=
  if fitsSigned t then writeBack rd (BitVec.ofInt 32 t) s else raiseTrap s

/-- End a conditional trap (47_cond_trap.md R134): trap if the condition holds, else complete normally; nothing else
happens. -/
def trapIf (c : Bool) (s : State) : Host.Outcome State Fault Refusal :=
  if c then raiseTrap s else complete 0#32 s

end Sys2Proof.Machine
end

