-- ==== Sys2Proof/Machine/AluImm.lean ====
section
/-! DEFINITION. The immediate ALU (48_alu_imm.md R143 to R154): `rt` is the destination, `rs` the source. Only `addi` can
trap. -/

namespace Sys2Proof.Machine

/-- `addi` (R144): exact signed sum with `s(imm)`, trap on overflow. -/
def execAddi (rt rs : RegIdx) (imm : Half) (s : State) : Host.Outcome State Fault Refusal :=
  trappingWrite rt ((s.reg rs).toInt + imm.toInt) s

/-- `addiu` (R145): sum modulo 2^32 with the SIGN-extended immediate. -/
def execAddiu (rt rs : RegIdx) (imm : Half) (s : State) : Host.Outcome State Fault Refusal :=
  writeBack rt (s.reg rs + signExtended imm) s

/-- `slti` (R147): signed comparison with the sign-extended immediate. -/
def execSlti (rt rs : RegIdx) (imm : Half) (s : State) : Host.Outcome State Fault Refusal :=
  writeBack rt (boolWord (lessSigned (s.reg rs) (signExtended imm))) s

/-- `sltiu` (R148): unsigned comparison with the SIGN-extended immediate (log 18). -/
def execSltiu (rt rs : RegIdx) (imm : Half) (s : State) : Host.Outcome State Fault Refusal :=
  writeBack rt (boolWord (lessUnsigned (s.reg rs) (signExtended imm))) s

/-- `andi` (R149). -/
def execAndi (rt rs : RegIdx) (imm : Half) (s : State) : Host.Outcome State Fault Refusal :=
  writeBack rt (s.reg rs &&& zeroExtended imm) s

/-- `ori` (R150). -/
def execOri (rt rs : RegIdx) (imm : Half) (s : State) : Host.Outcome State Fault Refusal :=
  writeBack rt (s.reg rs ||| zeroExtended imm) s

/-- `xori` (R151). -/
def execXori (rt rs : RegIdx) (imm : Half) (s : State) : Host.Outcome State Fault Refusal :=
  writeBack rt (s.reg rs ^^^ zeroExtended imm) s

/-- `lui` (R152): upper half from the immediate, lower half KEPT from `x[rs]`. -/
def execLui (rt rs : RegIdx) (imm : Half) (s : State) : Host.Outcome State Fault Refusal :=
  writeBack rt (upperImmediate imm (s.reg rs)) s

end Sys2Proof.Machine
end

