-- ==== Sys2Proof/Machine/AluReg.lean ====
section
/-! DEFINITION. The register ALU (46_alu_reg.md R120 to R132). Both operands are read before the destination is written;
only `add` and `sub` can trap. -/

namespace Sys2Proof.Machine

/-- `add` (R121): exact signed sum, trap on overflow. -/
def execAdd (rd rs rt : RegIdx) (s : State) : Host.Outcome State Fault Refusal :=
  trappingWrite rd ((s.reg rs).toInt + (s.reg rt).toInt) s

/-- `addu` (R122): sum modulo 2^32. -/
def execAddu (rd rs rt : RegIdx) (s : State) : Host.Outcome State Fault Refusal :=
  writeBack rd (s.reg rs + s.reg rt) s

/-- `sub` (R123): exact signed difference, trap on overflow. -/
def execSub (rd rs rt : RegIdx) (s : State) : Host.Outcome State Fault Refusal :=
  trappingWrite rd ((s.reg rs).toInt - (s.reg rt).toInt) s

/-- `subu` (R124): difference modulo 2^32. -/
def execSubu (rd rs rt : RegIdx) (s : State) : Host.Outcome State Fault Refusal :=
  writeBack rd (s.reg rs - s.reg rt) s

/-- `and` (R125). -/
def execAnd (rd rs rt : RegIdx) (s : State) : Host.Outcome State Fault Refusal :=
  writeBack rd (s.reg rs &&& s.reg rt) s

/-- `or` (R126). -/
def execOr (rd rs rt : RegIdx) (s : State) : Host.Outcome State Fault Refusal :=
  writeBack rd (s.reg rs ||| s.reg rt) s

/-- `xor` (R127). -/
def execXor (rd rs rt : RegIdx) (s : State) : Host.Outcome State Fault Refusal :=
  writeBack rd (s.reg rs ^^^ s.reg rt) s

/-- `nor` (R128): the complement of all 32 bits of the OR. -/
def execNor (rd rs rt : RegIdx) (s : State) : Host.Outcome State Fault Refusal :=
  writeBack rd (~~~(s.reg rs ||| s.reg rt)) s

/-- `slt` (R129): signed comparison. -/
def execSlt (rd rs rt : RegIdx) (s : State) : Host.Outcome State Fault Refusal :=
  writeBack rd (boolWord (lessSigned (s.reg rs) (s.reg rt))) s

/-- `sltu` (R130): unsigned comparison. -/
def execSltu (rd rs rt : RegIdx) (s : State) : Host.Outcome State Fault Refusal :=
  writeBack rd (boolWord (lessUnsigned (s.reg rs) (s.reg rt))) s

end Sys2Proof.Machine
end

