-- ==== Sys2Proof/Machine/Breakpoint.lean ====
section
/-! DEFINITION. `break` (44_break.md R102 to R105): its whole effect is the result code. -/

namespace Sys2Proof.Machine

/-- `BREAK_MID(rt, rd)` (R104): 0 at `rt = rd = 0`, else uninterpreted (log 13). -/
def breakMid (rt rd : RegIdx) : Word := if rt = 0#5 ∧ rd = 0#5 then 0#32 else Config.breakMidRaw rt rd

/-- The payload (R103), from the FIELD VALUES: `(rs << 16) | shamt | BREAK_MID(rt, rd)`. -/
def breakPayload (rs rt rd : RegIdx) (shamt : Shamt) : Word :=
  (rs.zeroExtend 32 <<< 16) ||| shamt.zeroExtend 32 ||| breakMid rt rd

/-- `break` (R103): the step completes with the payload as its code; nothing else changes. -/
def execBrk (rs rt rd : RegIdx) (shamt : Shamt) (s : State) : Host.Outcome State Fault Refusal :=
  complete (breakPayload rs rt rd shamt) s

end Sys2Proof.Machine
end

