-- ==== Sys2Proof/Machine/CondMove.lean ====
section
/-! DEFINITION. The conditional moves (43_cond_move.md R98 to R101). The whole of `x[rt]` is tested; neither traps. -/

namespace Sys2Proof.Machine

/-- `movz` (R99): `if x[rt] = 0 then x[rd] <- x[rs]`. -/
def execMovz (rd rs rt : RegIdx) (s : State) : Host.Outcome State Fault Refusal :=
  if s.reg rt = 0#32 then writeBack rd (s.reg rs) s else complete 0#32 s

/-- `movn` (R100): `if x[rt] != 0 then x[rd] <- x[rs]`. -/
def execMovn (rd rs rt : RegIdx) (s : State) : Host.Outcome State Fault Refusal :=
  if s.reg rt ≠ 0#32 then writeBack rd (s.reg rs) s else complete 0#32 s

end Sys2Proof.Machine
end

