-- ==== Sys2Proof/Machine/CondTrap.lean ====
section
/-! DEFINITION. The conditional traps (47_cond_trap.md R134 to R141): result 1 when the comparison holds, else 0; no
register changes. -/

namespace Sys2Proof.Machine

/-- `tge` (R135): signed `>=`. -/
def execTge (rs rt : RegIdx) (s : State) : Host.Outcome State Fault Refusal :=
  trapIf (!lessSigned (s.reg rs) (s.reg rt)) s

/-- `tgeu` (R136): unsigned `>=`. -/
def execTgeu (rs rt : RegIdx) (s : State) : Host.Outcome State Fault Refusal :=
  trapIf (!lessUnsigned (s.reg rs) (s.reg rt)) s

/-- `tlt` (R137): signed `<`. -/
def execTlt (rs rt : RegIdx) (s : State) : Host.Outcome State Fault Refusal :=
  trapIf (lessSigned (s.reg rs) (s.reg rt)) s

/-- `tltu` (R138): unsigned `<`. -/
def execTltu (rs rt : RegIdx) (s : State) : Host.Outcome State Fault Refusal :=
  trapIf (lessUnsigned (s.reg rs) (s.reg rt)) s

/-- `teq` (R139): all 32 bits equal. -/
def execTeq (rs rt : RegIdx) (s : State) : Host.Outcome State Fault Refusal :=
  trapIf (s.reg rs == s.reg rt) s

/-- `tne` (R140): some bit differs. -/
def execTne (rs rt : RegIdx) (s : State) : Host.Outcome State Fault Refusal :=
  trapIf (s.reg rs != s.reg rt) s

end Sys2Proof.Machine
end

