-- ==== Sys2Proof/Machine/HiLo.lean ====
section
/-! DEFINITION. HI/LO moves, multiply and divide (45_hilo_muldiv.md R106 to R118). None traps; only `mfhi` and `mflo`
write a general register. -/

namespace Sys2Proof.Machine

/-- Write a pair: `HI` and `LO`, then normal completion (R106). -/
def writeHiLo (h l : Word) (s : State) : Host.Outcome State Fault Refusal := complete 0#32 ((s.setHi h).setLo l)

/-- Split a 64-bit product (R106): `HI` its high half, `LO` its low half. -/
def writeProduct (p : BitVec 64) (s : State) : Host.Outcome State Fault Refusal :=
  writeHiLo (p.extractLsb' 32 32) (p.extractLsb' 0 32) s

/-- A division by zero (R115): the step completes, `HI` and `LO` each take a free value (log 12), nothing else
changes. -/
def divideByZero (signed : Bool) (dividend : Word) (s : State) : Host.Outcome State Fault Refusal :=
  writeHiLo (Config.div0Hi signed dividend s.draws) (Config.div0Lo signed dividend s.draws) s.drawn

/-- `mfhi` (R107): `x[rd] <- HI`. -/
def execMfhi (rd : RegIdx) (s : State) : Host.Outcome State Fault Refusal :=
  writeBack rd s.hi s

/-- `mthi` (R108): `HI <- x[rs]`. -/
def execMthi (rs : RegIdx) (s : State) : Host.Outcome State Fault Refusal :=
  complete 0#32 (s.setHi (s.reg rs))

/-- `mflo` (R109): `x[rd] <- LO`. -/
def execMflo (rd : RegIdx) (s : State) : Host.Outcome State Fault Refusal :=
  writeBack rd s.lo s

/-- `mtlo` (R110): `LO <- x[rs]`. -/
def execMtlo (rs : RegIdx) (s : State) : Host.Outcome State Fault Refusal :=
  complete 0#32 (s.setLo (s.reg rs))

/-- `mult` (R111): the exact signed product. -/
def execMult (rs rt : RegIdx) (s : State) : Host.Outcome State Fault Refusal :=
  writeProduct (BitVec.ofInt 64 ((s.reg rs).toInt * (s.reg rt).toInt)) s

/-- `multu` (R112): the exact unsigned product. -/
def execMultu (rs rt : RegIdx) (s : State) : Host.Outcome State Fault Refusal :=
  writeProduct (BitVec.ofNat 64 ((s.reg rs).toNat * (s.reg rt).toNat)) s

/-- `div` (R113): quotient truncated toward zero to `LO`, remainder with the dividend's sign to `HI`, both exact and
then narrowed to 32 bits, which settles -2^31 / -1 (R116, log 14); a zero divisor is R115. -/
def execDiv (rs rt : RegIdx) (s : State) : Host.Outcome State Fault Refusal :=
  if s.reg rt = 0#32 then divideByZero true (s.reg rs) s
  else writeHiLo (BitVec.ofInt 32 ((s.reg rs).toInt.tmod (s.reg rt).toInt))
    (BitVec.ofInt 32 ((s.reg rs).toInt.tdiv (s.reg rt).toInt)) s

/-- `divu` (R114): unsigned quotient to `LO`, remainder to `HI`; a zero divisor is R115. -/
def execDivu (rs rt : RegIdx) (s : State) : Host.Outcome State Fault Refusal :=
  if s.reg rt = 0#32 then divideByZero false (s.reg rs) s
  else writeHiLo (BitVec.ofNat 32 ((s.reg rs).toNat % (s.reg rt).toNat))
    (BitVec.ofNat 32 ((s.reg rs).toNat / (s.reg rt).toNat)) s

end Sys2Proof.Machine
end

