-- ==== Sys2Proof/Machine/Jumps.lean ====
section
/-! DEFINITION. The register jumps (42_jumps.md R93 to R97). The state they run in already holds `npc` in `pc`
(40_step_cycle.md R71); there is no delay slot and no check of the target. -/

namespace Sys2Proof.Machine

/-- `jr` (R94): `pc <- x[rs]`. -/
def execJr (rs : RegIdx) (s : State) : Host.Outcome State Fault Refusal :=
  complete 0#32 (s.setPc (s.reg rs))

/-- The link write of `jalr` (R95): `x[31] <- npc`. -/
def linked (s : State) : State :=
  s.setReg 31#5 s.pc

/-- `jalr` (R95): `x[31] <- npc`, then `pc <- x[rs]`, the target read AFTER the link write, so that `jalr r31`
falls through (the spec's D13, log 15). -/
def execJalr (rs : RegIdx) (s : State) : Host.Outcome State Fault Refusal :=
  complete 0#32 ((linked s).setPc ((linked s).reg rs))

end Sys2Proof.Machine
end

