-- ==== Sys2Proof/Machine/Shifts.lean ====
section
/-! DEFINITION. The shifts (41_shifts.md R85 to R92). `<<<`, `>>>` and `sshiftRight` are the `<<`, `>>u` and `>>s`
of R85. None traps. -/

namespace Sys2Proof.Machine

/-- `sll` (R86): `x[rd] <- x[rt] << shamt`. -/
def execSll (rd rt : RegIdx) (shamt : Shamt) (s : State) : Host.Outcome State Fault Refusal :=
  writeBack rd (s.reg rt <<< amountOfField shamt) s

/-- `srl` (R87): `x[rd] <- x[rt] >>u shamt`. -/
def execSrl (rd rt : RegIdx) (shamt : Shamt) (s : State) : Host.Outcome State Fault Refusal :=
  writeBack rd (s.reg rt >>> amountOfField shamt) s

/-- `sra` (R88): `x[rd] <- x[rt] >>s shamt`. -/
def execSra (rd rt : RegIdx) (shamt : Shamt) (s : State) : Host.Outcome State Fault Refusal :=
  writeBack rd ((s.reg rt).sshiftRight (amountOfField shamt)) s

/-- `sllv` (R89): `x[rd] <- x[rt] << u(x[rs][4:0])`. -/
def execSllv (rd rt rs : RegIdx) (s : State) : Host.Outcome State Fault Refusal :=
  writeBack rd (s.reg rt <<< amountOfValue (s.reg rs)) s

/-- `srlv` (R90): `x[rd] <- x[rt] >>u u(x[rs][4:0])`. -/
def execSrlv (rd rt rs : RegIdx) (s : State) : Host.Outcome State Fault Refusal :=
  writeBack rd (s.reg rt >>> amountOfValue (s.reg rs)) s

/-- `srav` (R91): `x[rd] <- x[rt] >>s u(x[rs][4:0])`. -/
def execSrav (rd rt rs : RegIdx) (s : State) : Host.Outcome State Fault Refusal :=
  writeBack rd ((s.reg rt).sshiftRight (amountOfValue (s.reg rs))) s

end Sys2Proof.Machine
end

