-- ==== Sys2Proof/Machine/Step.lean ====
section
/-! DEFINITION. The Step Controller (40_step_cycle.md R70, R71): fetch, check, advance, execute. Everything it does is
in the operations it calls. -/

namespace Sys2Proof.Machine

/-- One step (R71). In the order of R80: the fetch's range check (R72), the Invalid-operation check (R73), then the
instruction in the state whose `pc` has been advanced. An error carries no state: none changed (R178). -/
def step (s : State) : Host.Outcome State Fault Refusal :=
  match fetch s with
  | .error f => .fault f
  | .ok w =>
    match decodeWord w with
    | none => .fault (.invalidOperation w)
    | some i => exec i s.advance

/-- `s` with the instruction whose bits are `w` (numbered as spec/opcode_table.json numbers them, bits above `nbits`
zero) stored where `step` fetches: the four bytes at `pc`. Where those are not in memory there is no such place,
and `s` is left as it is (log 20). -/
def State.withFetchWord (s : State) (nbits w : Nat) : State :=
  match s.storeWord s.pc (BitVec.ofNat 32 (w % 2 ^ nbits)) with
  | .ok t => t
  | .error _ => s

end Sys2Proof.Machine
end

