-- ==== Sys2Proof/WellFormed.lean ====
section
/-! DEFINITION. The checks. A term of `Instr` needs none: its operands are bit vectors of exactly the widths of the
fields they come from, and every value of a field is legal (30_encoding.md R56), so every `Instr` is well formed.
What can be ill formed is checked here: extracted fields that name no instruction (R57, R58, R61) and construction
parameters that break the preconditions of reset (70_reset_and_hazards.md R192). -/

namespace Sys2Proof

/-- The function codes of R58. -/
def supportedFuncts : List Nat :=
  [0, 2, 3, 4, 6, 7, 8, 9, 10, 11, 13, 16, 17, 18, 19, 24, 25, 26, 27, 32, 33, 34, 35, 36, 37, 38, 39, 42, 43,
   48, 49, 50, 51, 52, 54]

/-- Fields of one of the 43 instructions: an R-type function code of R58, or an I-type opcode of R57. -/
def Fields.wellFormed : Fields → Bool
  | .r _ _ _ _ funct => supportedFuncts.contains funct.toNat
  | .i opcode _ _ _ => 8 ≤ opcode.toNat && opcode.toNat ≤ 15

/-- The preconditions of construction (R192): `MEM_CAPACITY` at most 2^32, and the program fits. -/
def constructionWellFormed (capacity : Nat) (program : List Word) : Bool :=
  capacity ≤ Config.maxCapacity && 4 * program.length ≤ capacity

end Sys2Proof
end

