-- ==== Sys2Proof/Machine/HostInterface.lean ====
section
/-! DEFINITION. What the host can do to the core (49_host_interface.md R155 to R169): construct it
(70_reset_and_hazards.md R190 to R193) and perform the seven operations of R156 on it, one at a time. -/

namespace Sys2Proof.Machine

/-! ### Construction -/

/-- Store the words of a program one after another from address `k` on (R191). -/
def Memory.load : Memory → Nat → List Word → Memory
  | m, _, [] => m
  | m, k, w :: ws => Memory.load (m.writeWord k w) (k + 4) ws

/-- Construction, the only reset (R190, R193): zeroed memory of `capacity` bytes, the program from address 0 on,
every register as `State.reset` has it. `none` is the refusal of R192: no machine exists. -/
def State.construct (capacity : Nat) (program : List Word) : Option State :=
  if constructionWellFormed capacity program then
    some { State.reset with memCapacity := capacity, mem := Memory.load [] 0 program }
  else none

/-! ### The operations on an existing machine -/

/-- The operations of R156. An index is any natural number, so that R169 can be said (the spec's D22, log 21). -/
inductive HostOp where
  | getRegister (index : Nat)
  | setRegister (index : Nat) (value : Word)
  | loadByte (addr : Word)
  | storeByte (value : Byte) (addr : Word)
  | loadWord (addr : Word)
  | storeWord (value : Word) (addr : Word)
  | step
  deriving DecidableEq, Repr

/-- What an operation answers (R156). -/
inductive HostReply where
  /-- `Ok(v)` of `get_register` and `load_word`. -/
  | word (v : Word)
  /-- `Ok(v)` of `load_byte`. -/
  | byte (v : Byte)
  /-- `Ok` of `set_register`, `store_byte`, `store_word`. -/
  | done
  /-- `Code(c)` of `step` (60_exceptions.md R170). -/
  | code (c : Word)
  /-- `Error(e)`. -/
  | error (e : Fault)
  /-- A step without a meaning: raised by no instruction, since every arm of `exec` has one. -/
  | refused (r : Refusal)
  deriving DecidableEq, Repr

/-- `get_register(index)` (R158, R169). -/
def getRegister (index : Nat) (s : State) : HostReply :=
  if index < 32 then .word (s.reg (BitVec.ofNat 5 index)) else .error (.registerIndexOutOfRange index)

/-- `set_register(index, value)` (R159, R169). -/
def setRegister (index : Nat) (value : Word) (s : State) : HostReply × State :=
  if index < 32 then (.done, s.setReg (BitVec.ofNat 5 index) value)
  else (.error (.registerIndexOutOfRange index), s)

/-- The answer of a store: done, or the error of R161 and the state as it was. -/
def replyStored (s : State) : Except Fault State → HostReply × State
  | .ok t => (.done, t)
  | .error e => (.error e, s)

/-- The answer of a step (R165): its result code, or the error and the state as it was (60_exceptions.md R178). -/
def replyStepped (s : State) : Host.Outcome State Fault Refusal → HostReply × State
  | .next t => (.code (t.result.getD 0#32), t)
  | .fault e => (.error e, s)
  | .refused r => (.refused r, s)

/-- One host operation (R156): its reply and the state after it. -/
def State.perform (s : State) : HostOp → HostReply × State
  | .getRegister index => (getRegister index s, s)
  | .setRegister index value => setRegister index value s
  | .loadByte addr => (match s.loadByte addr with | .ok v => .byte v | .error e => .error e, s)
  | .storeByte value addr => replyStored s (s.storeByte addr value)
  | .loadWord addr => (match s.loadWord addr with | .ok v => .word v | .error e => .error e, s)
  | .storeWord value addr => replyStored s (s.storeWord addr value)
  | .step => replyStepped s (Sys2Proof.Machine.step s)

/-- A sequence of host operations, in the order the host issues them (20_memory.md R40): the replies and the last
state. No reply, an error included, ends the sequence (40_step_cycle.md R78). -/
def State.performAll (s : State) : List HostOp → List HostReply × State
  | [] => ([], s)
  | op :: ops =>
    ((s.perform op).1 :: (State.performAll (s.perform op).2 ops).1, (State.performAll (s.perform op).2 ops).2)

end Sys2Proof.Machine
end

