-- ==== Sys2Proof/Safety.lean ====
section
/-! DEFINITION. The terms claims use: the state invariant, what a safe step is, what a completed instruction leaves
(its effect and its frame at once), which register an instruction may write, and the opcode table's masks. No part of
the machine depends on this file. -/

namespace Sys2Proof.Machine

/-! ### Safety and the invariant -/

/-- A safe step: it ends in a next state, neither an error outcome nor a refusal. -/
def SafeStep (s : State) : Prop := ∃ t, step s = .next t

/-- The invariant of a constructed machine: a legal capacity (70_reset_and_hazards.md R192), memory in canonical form,
and no byte listed at or above the capacity (20_memory.md R39). -/
def State.Inv (s : State) : Prop :=
  s.memCapacity ≤ Config.maxCapacity ∧ s.mem.wf ∧ ∀ c ∈ s.mem, c.1 < s.memCapacity

/-! ### Effect and frame of a completed instruction -/

/-- What a completed instruction leaves beside memory: its result code, every general register, `HI`, `LO`, `pc`
and the model's counter of free values. -/
structure After where
  code : Word
  regs : RegIdx → Word
  hi : Word
  lo : Word
  pc : Word
  draws : Nat

/-- Normal completion with every register as before; a statement overrides the fields its instruction changes. -/
def After.same (s : State) : After := ⟨0#32, s.reg, s.hi, s.lo, s.pc, s.draws⟩

/-- The general registers after `x[rd] <- v`: only `rd` changes, and `x[0]` never does (10_state.md R12). -/
def written (s : State) (rd : RegIdx) (v : Word) : RegIdx → Word :=
  fun i => if i = rd ∧ rd ≠ 0#5 then v else s.reg i

/-- The outcome is a next state that holds exactly what `a` says, with the memory, every byte a load can read and the
capacity as they were in `s`. -/
def Completes (o : Host.Outcome State Fault Refusal) (s : State) (a : After) : Prop :=
  ∃ t, o = .next t ∧ t.result = some a.code ∧ (∀ i, t.reg i = a.regs i) ∧ t.hi = a.hi ∧ t.lo = a.lo ∧ t.pc = a.pc ∧
    t.draws = a.draws ∧ t.mem = s.mem ∧ (∀ addr, t.loadByte addr = s.loadByte addr) ∧ t.memCapacity = s.memCapacity

/-- Two states that differ in `HI` and `LO` at most. -/
def AgreeButHiLo (s t : State) : Prop :=
  t.gpr = s.gpr ∧ t.pc = s.pc ∧ t.mem = s.mem ∧ t.memCapacity = s.memCapacity ∧ t.result = s.result ∧
    t.draws = s.draws

/-! ### The bit tests of 46_alu_reg.md R131 -/

/-- A sum `r = a + b` overflows: equal signs in, the other sign out. -/
def addOverflowBit (a b r : Word) : Bool := a.msb == b.msb && r.msb != a.msb

/-- A difference `r = a - b` overflows: different signs in, not the minuend's sign out. -/
def subOverflowBit (a b r : Word) : Bool := a.msb != b.msb && r.msb != a.msb

/-! ### The instruction set as data -/

/-- The general register an instruction may write (10_state.md R13). -/
def destination : Instr → Option RegIdx
  | .sll rd _ _ => some rd
  | .srl rd _ _ => some rd
  | .sra rd _ _ => some rd
  | .sllv rd _ _ => some rd
  | .srlv rd _ _ => some rd
  | .srav rd _ _ => some rd
  | .jr _ => none
  | .jalr _ => some 31
  | .movz rd _ _ => some rd
  | .movn rd _ _ => some rd
  | .brk _ _ _ _ => none
  | .mfhi rd => some rd
  | .mthi _ => none
  | .mflo rd => some rd
  | .mtlo _ => none
  | .mult _ _ => none
  | .multu _ _ => none
  | .div _ _ => none
  | .divu _ _ => none
  | .add rd _ _ => some rd
  | .addu rd _ _ => some rd
  | .sub rd _ _ => some rd
  | .subu rd _ _ => some rd
  | .and rd _ _ => some rd
  | .or rd _ _ => some rd
  | .xor rd _ _ => some rd
  | .nor rd _ _ => some rd
  | .slt rd _ _ => some rd
  | .sltu rd _ _ => some rd
  | .tge _ _ => none
  | .tgeu _ _ => none
  | .tlt _ _ => none
  | .tltu _ _ => none
  | .teq _ _ => none
  | .tne _ _ => none
  | .addi rt _ _ => some rt
  | .addiu rt _ _ => some rt
  | .slti rt _ _ => some rt
  | .sltiu rt _ _ => some rt
  | .andi rt _ _ => some rt
  | .ori rt _ _ => some rt
  | .xori rt _ _ => some rt
  | .lui rt _ _ => some rt

/-- The instruction can trap (40_step_cycle.md R75): `add`, `sub`, `addi` and the conditional traps. -/
def canTrap : Instr → Bool
  | .add _ _ _ | .sub _ _ _ | .addi _ _ _ | .tge _ _ | .tgeu _ _ | .tlt _ _ | .tltu _ _ | .teq _ _ | .tne _ _ => true
  | _ => false

/-- The instruction is `break`. -/
def isBreak : Instr → Bool
  | .brk _ _ _ _ => true
  | _ => false

/-- The instruction is a register jump (42_jumps.md R93). -/
def isJump : Instr → Bool
  | .jr _ | .jalr _ => true
  | _ => false

/-- The instruction may write `HI` (10_state.md R14). -/
def writesHi : Instr → Bool
  | .mult _ _ | .multu _ _ | .div _ _ | .divu _ _ | .mthi _ => true
  | _ => false

/-- The instruction may write `LO` (R14). -/
def writesLo : Instr → Bool
  | .mult _ _ | .multu _ _ | .div _ _ | .divu _ _ | .mtlo _ => true
  | _ => false

/-- The instruction reads `HI` or `LO` (R14). -/
def readsHiLo : Instr → Bool
  | .mfhi _ | .mflo _ => true
  | _ => false

/-- A word is the instruction `f w` exactly when `w & mask = pattern` (30_encoding.md R59). -/
def Selects (mask pattern : Word) (f : Word → Instr) : Prop :=
  ∀ w : Word, w &&& mask = pattern ↔ decodeWord w = some (f w)

/-- The table's `match` value of an instruction's row. -/
def tableMatch : Instr → Word
  | .sll _ _ _ => 0x00000000
  | .srl _ _ _ => 0x00000002
  | .sra _ _ _ => 0x00000003
  | .sllv _ _ _ => 0x00000004
  | .srlv _ _ _ => 0x00000006
  | .srav _ _ _ => 0x00000007
  | .jr _ => 0x00000008
  | .jalr _ => 0x00000009
  | .movz _ _ _ => 0x0000000A
  | .movn _ _ _ => 0x0000000B
  | .brk _ _ _ _ => 0x0000000D
  | .mfhi _ => 0x00000010
  | .mthi _ => 0x00000011
  | .mflo _ => 0x00000012
  | .mtlo _ => 0x00000013
  | .mult _ _ => 0x00000018
  | .multu _ _ => 0x00000019
  | .div _ _ => 0x0000001A
  | .divu _ _ => 0x0000001B
  | .add _ _ _ => 0x00000020
  | .addu _ _ _ => 0x00000021
  | .sub _ _ _ => 0x00000022
  | .subu _ _ _ => 0x00000023
  | .and _ _ _ => 0x00000024
  | .or _ _ _ => 0x00000025
  | .xor _ _ _ => 0x00000026
  | .nor _ _ _ => 0x00000027
  | .slt _ _ _ => 0x0000002A
  | .sltu _ _ _ => 0x0000002B
  | .tge _ _ => 0x00000030
  | .tgeu _ _ => 0x00000031
  | .tlt _ _ => 0x00000032
  | .tltu _ _ => 0x00000033
  | .teq _ _ => 0x00000034
  | .tne _ _ => 0x00000036
  | .addi _ _ _ => 0x20000000
  | .addiu _ _ _ => 0x24000000
  | .slti _ _ _ => 0x28000000
  | .sltiu _ _ _ => 0x2C000000
  | .andi _ _ _ => 0x30000000
  | .ori _ _ _ => 0x34000000
  | .xori _ _ _ => 0x38000000
  | .lui _ _ _ => 0x3C000000

/-- The table's `mask`: opcode and funct for an R-type row, opcode for an I-type row (30_encoding.md R54). -/
def tableMask : Instr → Word
  | .addi _ _ _ | .addiu _ _ _ | .slti _ _ _ | .sltiu _ _ _ | .andi _ _ _ | .ori _ _ _ | .xori _ _ _
  | .lui _ _ _ => 0xFC000000
  | _ => 0xFC00003F

/-- The bits of a word that matter to an instruction: the mask and the fields its row calls used (R54). -/
def usedBits : Instr → Word
  | .sll _ _ _ => 0xFC1FFFFF
  | .srl _ _ _ => 0xFC1FFFFF
  | .sra _ _ _ => 0xFC1FFFFF
  | .sllv _ _ _ => 0xFFFFF83F
  | .srlv _ _ _ => 0xFFFFF83F
  | .srav _ _ _ => 0xFFFFF83F
  | .jr _ => 0xFFE0003F
  | .jalr _ => 0xFFE0003F
  | .movz _ _ _ => 0xFFFFF83F
  | .movn _ _ _ => 0xFFFFF83F
  | .brk _ _ _ _ => 0xFFFFFFFF
  | .mfhi _ => 0xFC00F83F
  | .mthi _ => 0xFFE0003F
  | .mflo _ => 0xFC00F83F
  | .mtlo _ => 0xFFE0003F
  | .mult _ _ => 0xFFFF003F
  | .multu _ _ => 0xFFFF003F
  | .div _ _ => 0xFFFF003F
  | .divu _ _ => 0xFFFF003F
  | .add _ _ _ => 0xFFFFF83F
  | .addu _ _ _ => 0xFFFFF83F
  | .sub _ _ _ => 0xFFFFF83F
  | .subu _ _ _ => 0xFFFFF83F
  | .and _ _ _ => 0xFFFFF83F
  | .or _ _ _ => 0xFFFFF83F
  | .xor _ _ _ => 0xFFFFF83F
  | .nor _ _ _ => 0xFFFFF83F
  | .slt _ _ _ => 0xFFFFF83F
  | .sltu _ _ _ => 0xFFFFF83F
  | .tge _ _ => 0xFFFF003F
  | .tgeu _ _ => 0xFFFF003F
  | .tlt _ _ => 0xFFFF003F
  | .tltu _ _ => 0xFFFF003F
  | .teq _ _ => 0xFFFF003F
  | .tne _ _ => 0xFFFF003F
  | .addi _ _ _ => 0xFFFFFFFF
  | .addiu _ _ _ => 0xFFFFFFFF
  | .slti _ _ _ => 0xFFFFFFFF
  | .sltiu _ _ _ => 0xFFFFFFFF
  | .andi _ _ _ => 0xFFFFFFFF
  | .ori _ _ _ => 0xFFFFFFFF
  | .xori _ _ _ => 0xFFFFFFFF
  | .lui _ _ _ => 0xFFFFFFFF

/-- The (mask, match) pairs of the 43 rows of spec/opcode_table.json, in the table's order. -/
def opcodeTable : List (Word × Word) :=
  [(0xFC00003F, 0x00000000), (0xFC00003F, 0x00000002), (0xFC00003F, 0x00000003), (0xFC00003F, 0x00000004)] ++
  [(0xFC00003F, 0x00000006), (0xFC00003F, 0x00000007), (0xFC00003F, 0x00000008), (0xFC00003F, 0x00000009)] ++
  [(0xFC00003F, 0x0000000A), (0xFC00003F, 0x0000000B), (0xFC00003F, 0x0000000D), (0xFC00003F, 0x00000010)] ++
  [(0xFC00003F, 0x00000011), (0xFC00003F, 0x00000012), (0xFC00003F, 0x00000013), (0xFC00003F, 0x00000018)] ++
  [(0xFC00003F, 0x00000019), (0xFC00003F, 0x0000001A), (0xFC00003F, 0x0000001B), (0xFC00003F, 0x00000020)] ++
  [(0xFC00003F, 0x00000021), (0xFC00003F, 0x00000022), (0xFC00003F, 0x00000023), (0xFC00003F, 0x00000024)] ++
  [(0xFC00003F, 0x00000025), (0xFC00003F, 0x00000026), (0xFC00003F, 0x00000027), (0xFC00003F, 0x0000002A)] ++
  [(0xFC00003F, 0x0000002B), (0xFC00003F, 0x00000030), (0xFC00003F, 0x00000031), (0xFC00003F, 0x00000032)] ++
  [(0xFC00003F, 0x00000033), (0xFC00003F, 0x00000034), (0xFC00003F, 0x00000036), (0xFC000000, 0x20000000)] ++
  [(0xFC000000, 0x24000000), (0xFC000000, 0x28000000), (0xFC000000, 0x2C000000), (0xFC000000, 0x30000000)] ++
  [(0xFC000000, 0x34000000), (0xFC000000, 0x38000000), (0xFC000000, 0x3C000000)]

end Sys2Proof.Machine
end

