-- ==== Sys2Proof/Certificates/Slice0/Obligations.lean ====
section
/-! DEFINITION. The statements for the provers. Each docstring cites the rule of spec/ it formalises. A statement that
rests on a decision the spec marks as its own (92_eei_decisions.md) or on a choice of the model is derived and says so. -/

open Sys2Proof Sys2Proof.Machine

/-- R12, whole: the read, the write, no side effects, and the host's accessors at index 0. -/
def Obligations.RegisterReadAfterWrite : Prop :=
  ∀ (s : State) (i j : RegIdx) (v : Word),
    (s.setReg i v).reg j = (if j = i ∧ i ≠ 0#5 then v else s.reg j) ∧
    (∃ g, s.setReg i v = { s with gpr := g }) ∧
    s.reg 0#5 = 0#32 ∧ s.setReg 0#5 v = s ∧
    s.perform (.setRegister 0 v) = (.done, s) ∧ s.perform (.getRegister 0) = (.word 0#32, s)

/-- R86, R87, R88, with the operators as R85 defines them; `written` discards a write to `x[0]`. -/
def Obligations.ShiftImmediate : Prop :=
  (∀ (rd rt : RegIdx) (shamt : Shamt) (s : State),
    Completes (exec (.sll rd rt shamt) s) s
      { After.same s with regs := written s rd (BitVec.ofNat 32 ((s.reg rt).toNat * 2 ^ shamt.toNat)) } ∧
    Completes (exec (.srl rd rt shamt) s) s
      { After.same s with regs := written s rd (BitVec.ofNat 32 ((s.reg rt).toNat / 2 ^ shamt.toNat)) } ∧
    Completes (exec (.sra rd rt shamt) s) s
      { After.same s with regs := written s rd (BitVec.ofInt 32 ((s.reg rt).toInt / 2 ^ shamt.toNat)) }) ∧
  Selects 0xFC00003F 0x00000000 (fun w => .sll (w.extractLsb' 11 5) (w.extractLsb' 16 5) (w.extractLsb' 6 5)) ∧
  Selects 0xFC00003F 0x00000002 (fun w => .srl (w.extractLsb' 11 5) (w.extractLsb' 16 5) (w.extractLsb' 6 5)) ∧
  Selects 0xFC00003F 0x00000003 (fun w => .sra (w.extractLsb' 11 5) (w.extractLsb' 16 5) (w.extractLsb' 6 5))

/-- R89, R90, R91: the amount is `u(x[rs][4:0])`, bits 31:5 of `x[rs]` are ignored. -/
def Obligations.ShiftVariable : Prop :=
  (∀ (rd rt rs : RegIdx) (s : State),
    Completes (exec (.sllv rd rt rs) s) s
      { After.same s with
        regs := written s rd (BitVec.ofNat 32 ((s.reg rt).toNat * 2 ^ ((s.reg rs).toNat % 32))) } ∧
    Completes (exec (.srlv rd rt rs) s) s
      { After.same s with
        regs := written s rd (BitVec.ofNat 32 ((s.reg rt).toNat / 2 ^ ((s.reg rs).toNat % 32))) } ∧
    Completes (exec (.srav rd rt rs) s) s
      { After.same s with
        regs := written s rd (BitVec.ofInt 32 ((s.reg rt).toInt / 2 ^ ((s.reg rs).toNat % 32))) }) ∧
  Selects 0xFC00003F 0x00000004 (fun w => .sllv (w.extractLsb' 11 5) (w.extractLsb' 16 5) (w.extractLsb' 21 5)) ∧
  Selects 0xFC00003F 0x00000006 (fun w => .srlv (w.extractLsb' 11 5) (w.extractLsb' 16 5) (w.extractLsb' 21 5)) ∧
  Selects 0xFC00003F 0x00000007 (fun w => .srav (w.extractLsb' 11 5) (w.extractLsb' 16 5) (w.extractLsb' 21 5))

/-- R85's bitwise reading of the three operators, on the value each instruction writes. -/
def Obligations.ShiftBitwise : Prop :=
  ∀ (rd rt : RegIdx) (shamt : Shamt) (s : State),
    (∃ v : Word, Completes (exec (.sll rd rt shamt) s) s { After.same s with regs := written s rd v } ∧
      ∀ i < 32, v.getLsbD i = if shamt.toNat ≤ i then (s.reg rt).getLsbD (i - shamt.toNat) else false) ∧
    (∃ v : Word, Completes (exec (.srl rd rt shamt) s) s { After.same s with regs := written s rd v } ∧
      ∀ i < 32, v.getLsbD i = if i + shamt.toNat ≤ 31 then (s.reg rt).getLsbD (i + shamt.toNat) else false) ∧
    (∃ v : Word, Completes (exec (.sra rd rt shamt) s) s { After.same s with regs := written s rd v } ∧
      ∀ i < 32, v.getLsbD i =
        if i + shamt.toNat ≤ 31 then (s.reg rt).getLsbD (i + shamt.toNat) else (s.reg rt).getLsbD 31)

/-- R94. -/
def Obligations.JumpRegister : Prop :=
  (∀ (rs : RegIdx) (s : State), Completes (exec (.jr rs) s) s { After.same s with pc := s.reg rs }) ∧
  Selects 0xFC00003F 0x00000008 (fun w => .jr (w.extractLsb' 21 5))

/-- R95. The case `rs = 31` is the spec's own decision D13 (log 15), so the statement is derived. -/
def Obligations.JumpAndLink : Prop :=
  (∀ (rs : RegIdx) (s : State),
    Completes (exec (.jalr rs) s) s
      { After.same s with regs := written s 31#5 s.pc, pc := if rs = 31#5 then s.pc else s.reg rs }) ∧
  Selects 0xFC00003F 0x00000009 (fun w => .jalr (w.extractLsb' 21 5))

/-- R99, R100. -/
def Obligations.ConditionalMove : Prop :=
  (∀ (rd rs rt : RegIdx) (s : State),
    Completes (exec (.movz rd rs rt) s) s
      { After.same s with regs := if (s.reg rt).toNat = 0 then written s rd (s.reg rs) else s.reg } ∧
    Completes (exec (.movn rd rs rt) s) s
      { After.same s with regs := if (s.reg rt).toNat = 0 then s.reg else written s rd (s.reg rs) }) ∧
  Selects 0xFC00003F 0x0000000A (fun w => .movz (w.extractLsb' 11 5) (w.extractLsb' 21 5) (w.extractLsb' 16 5)) ∧
  Selects 0xFC00003F 0x0000000B (fun w => .movn (w.extractLsb' 11 5) (w.extractLsb' 21 5) (w.extractLsb' 16 5))

/-- R103, for every value of the uninterpreted `BREAK_MID` (R104, log 13); the spec's default 0 is not claimed. -/
def Obligations.BreakPayload : Prop :=
  breakMid 0#5 0#5 = 0#32 ∧
  (∀ (rs rt rd : RegIdx) (shamt : Shamt) (s : State),
    Completes (exec (.brk rs rt rd shamt) s) s
      { After.same s with code := BitVec.ofNat 32 (rs.toNat * 65536 + shamt.toNat) ||| breakMid rt rd }) ∧
  Selects 0xFC00003F 0x0000000D (fun w => .brk (w.extractLsb' 21 5) (w.extractLsb' 16 5) (w.extractLsb' 11 5) (w.extractLsb' 6 5))

/-- R107, R108, R109, R110. -/
def Obligations.HiLoMoves : Prop :=
  (∀ (r : RegIdx) (s : State),
    Completes (exec (.mfhi r) s) s { After.same s with regs := written s r s.hi } ∧
    Completes (exec (.mthi r) s) s { After.same s with hi := s.reg r } ∧
    Completes (exec (.mflo r) s) s { After.same s with regs := written s r s.lo } ∧
    Completes (exec (.mtlo r) s) s { After.same s with lo := s.reg r }) ∧
  Selects 0xFC00003F 0x00000010 (fun w => .mfhi (w.extractLsb' 11 5)) ∧
  Selects 0xFC00003F 0x00000011 (fun w => .mthi (w.extractLsb' 21 5)) ∧
  Selects 0xFC00003F 0x00000012 (fun w => .mflo (w.extractLsb' 11 5)) ∧
  Selects 0xFC00003F 0x00000013 (fun w => .mtlo (w.extractLsb' 21 5))

/-- R111, R112: the exact product, split; a 64-bit pair is determined by that reading. -/
def Obligations.Multiply : Prop :=
  (∀ (rs rt : RegIdx) (s : State), ∃ h h' l : Word,
    Completes (exec (.mult rs rt) s) s { After.same s with hi := h, lo := l } ∧
    h.toInt * 4294967296 + (l.toNat : Int) = (s.reg rs).toInt * (s.reg rt).toInt ∧
    Completes (exec (.multu rs rt) s) s { After.same s with hi := h', lo := l } ∧
    h'.toNat * 4294967296 + l.toNat = (s.reg rs).toNat * (s.reg rt).toNat) ∧
  Selects 0xFC00003F 0x00000018 (fun w => .mult (w.extractLsb' 21 5) (w.extractLsb' 16 5)) ∧
  Selects 0xFC00003F 0x00000019 (fun w => .multu (w.extractLsb' 21 5) (w.extractLsb' 16 5))

/-- R113, in its own pseudocode, for a nonzero divisor. The zero-divisor branch is no part of R113: that the step completes is
the spec's own decision D10 (R115), that it counts a draw is the model's choice (log 12, DESIGN CHOICE), so derived. -/
def Obligations.DivideSigned : Prop :=
  (∀ (rs rt : RegIdx) (s : State),
    if s.reg rt = 0#32 then
      ∃ h l, Completes (exec (.div rs rt) s) s { After.same s with hi := h, lo := l, draws := s.draws + 1 }
    else
      ∃ a b q r : Int, a = (s.reg rs).toInt ∧ b = (s.reg rt).toInt ∧
        q = a.sign * b.sign * ((a.natAbs / b.natAbs : Nat) : Int) ∧ r = a - q * b ∧
        Completes (exec (.div rs rt) s) s
          { After.same s with hi := BitVec.ofInt 32 r, lo := BitVec.ofInt 32 q }) ∧
  Selects 0xFC00003F 0x0000001A (fun w => .div (w.extractLsb' 21 5) (w.extractLsb' 16 5))

/-- R114, for a nonzero divisor: the quotient and remainder are the ones the division law fixes. The zero-divisor branch is no
part of R114: that the step completes is the spec's own decision D10 (R115), that it counts a draw is the model's choice
(log 12, DESIGN CHOICE), so derived. -/
def Obligations.DivideUnsigned : Prop :=
  (∀ (rs rt : RegIdx) (s : State),
    if s.reg rt = 0#32 then
      ∃ h l, Completes (exec (.divu rs rt) s) s { After.same s with hi := h, lo := l, draws := s.draws + 1 }
    else
      ∃ h l : Word, Completes (exec (.divu rs rt) s) s { After.same s with hi := h, lo := l } ∧
        l.toNat = (s.reg rs).toNat / (s.reg rt).toNat ∧ h.toNat < (s.reg rt).toNat ∧
        (s.reg rs).toNat = l.toNat * (s.reg rt).toNat + h.toNat) ∧
  Selects 0xFC00003F 0x0000001B (fun w => .divu (w.extractLsb' 21 5) (w.extractLsb' 16 5))

/-- R115 (the spec's own decision D10, log 12): for every value of the free constants. -/
def Obligations.DivideByZeroIsFree : Prop :=
  ∀ (rs rt : RegIdx) (s : State), s.reg rt = 0#32 →
    Completes (exec (.div rs rt) s) s
      { After.same s with
        hi := Config.div0Hi true (s.reg rs) s.draws, lo := Config.div0Lo true (s.reg rs) s.draws,
        draws := s.draws + 1 } ∧
    Completes (exec (.divu rs rt) s) s
      { After.same s with
        hi := Config.div0Hi false (s.reg rs) s.draws, lo := Config.div0Lo false (s.reg rs) s.draws,
        draws := s.draws + 1 }

/-- R116 (the spec's own decision D11, log 14). -/
def Obligations.DivideOverflow : Prop :=
  ∀ (rs rt : RegIdx) (s : State), s.reg rs = 0x80000000#32 → s.reg rt = 0xFFFFFFFF#32 →
    Completes (exec (.div rs rt) s) s { After.same s with hi := 0#32, lo := 0x80000000#32 }

/-- R117's closing sentence, on the signed readings of `LO` and `HI` (the overflow row is R116). -/
def Obligations.DivisionIdentity : Prop :=
  ∀ (rs rt : RegIdx) (s t : State), s.reg rt ≠ 0#32 →
    ¬ (s.reg rs = 0x80000000#32 ∧ s.reg rt = 0xFFFFFFFF#32) → exec (.div rs rt) s = .next t →
    (s.reg rs).toInt = t.lo.toInt * (s.reg rt).toInt + t.hi.toInt ∧
    t.hi.toInt.natAbs < (s.reg rt).toInt.natAbs ∧
    (t.hi.toInt = 0 ∨ t.hi.toInt.sign = (s.reg rs).toInt.sign)

/-- R118, whole. `writesHi`, `writesLo` are the writers it lists. -/
def Obligations.HiLoKept : Prop :=
  (∀ (i : Instr) (s t : State), exec i s = .next t →
    (writesHi i = false → t.hi = s.hi) ∧ (writesLo i = false → t.lo = s.lo)) ∧
  ∀ w : Word, opcodeOf w = 0#6 →
    (functOf w).toNat ∈ [20, 21, 22, 23, 28, 29, 30, 31] → decodeWord w = none

/-- R14: "No other instruction reads or writes them." Two runs that differ only in `HI` and `LO`. -/
def Obligations.HiLoReaders : Prop :=
  (∀ (i : Instr) (s t : State), readsHiLo i = false → AgreeButHiLo s t →
    ∃ s' t', exec i s = .next s' ∧ exec i t = .next t' ∧ AgreeButHiLo s' t') ∧
  ∀ (rd : RegIdx) (s t : State), AgreeButHiLo s t →
    (s.hi = t.hi → ∃ s' t', exec (.mfhi rd) s = .next s' ∧ exec (.mfhi rd) t = .next t' ∧ AgreeButHiLo s' t') ∧
    (s.lo = t.lo → ∃ s' t', exec (.mflo rd) s = .next s' ∧ exec (.mflo rd) t = .next t' ∧ AgreeButHiLo s' t')

/-- R121, R123. `pc` is already advanced when an instruction runs (R71), and a trap leaves it so. -/
def Obligations.AddSubTrapping : Prop :=
  (∀ (rd rs rt : RegIdx) (s : State),
    (∃ t : Int, t = (s.reg rs).toInt + (s.reg rt).toInt ∧
      Completes (exec (.add rd rs rt) s) s
        (if 2147483647 < t ∨ t < -2147483648 then { After.same s with code := 1#32 }
         else { After.same s with regs := written s rd (BitVec.ofInt 32 t) })) ∧
    (∃ t : Int, t = (s.reg rs).toInt - (s.reg rt).toInt ∧
      Completes (exec (.sub rd rs rt) s) s
        (if 2147483647 < t ∨ t < -2147483648 then { After.same s with code := 1#32 }
         else { After.same s with regs := written s rd (BitVec.ofInt 32 t) }))) ∧
  Selects 0xFC00003F 0x00000020 (fun w => .add (w.extractLsb' 11 5) (w.extractLsb' 21 5) (w.extractLsb' 16 5)) ∧
  Selects 0xFC00003F 0x00000022 (fun w => .sub (w.extractLsb' 11 5) (w.extractLsb' 21 5) (w.extractLsb' 16 5))

/-- R131: the bit test is equivalent to the range check the instructions make. -/
def Obligations.OverflowBitTest : Prop :=
  ∀ (rd rs rt : RegIdx) (imm : Half) (s : State),
    (∃ t, exec (.add rd rs rt) s = .next t ∧
      t.result = some (if addOverflowBit (s.reg rs) (s.reg rt) (s.reg rs + s.reg rt) then 1#32 else 0#32)) ∧
    (∃ t, exec (.sub rd rs rt) s = .next t ∧
      t.result = some (if subOverflowBit (s.reg rs) (s.reg rt) (s.reg rs - s.reg rt) then 1#32 else 0#32)) ∧
    (∃ t, exec (.addi rt rs imm) s = .next t ∧
      t.result = some (if addOverflowBit (s.reg rs) (imm.signExtend 32) (s.reg rs + imm.signExtend 32)
        then 1#32 else 0#32))

/-- R122, R124. -/
def Obligations.AddSubWrapping : Prop :=
  (∀ (rd rs rt : RegIdx) (s : State),
    Completes (exec (.addu rd rs rt) s) s
      { After.same s with regs := written s rd (BitVec.ofNat 32 ((s.reg rs).toNat + (s.reg rt).toNat)) } ∧
    Completes (exec (.subu rd rs rt) s) s
      { After.same s with
        regs := written s rd (BitVec.ofInt 32 (((s.reg rs).toNat : Int) - ((s.reg rt).toNat : Int))) }) ∧
  Selects 0xFC00003F 0x00000021 (fun w => .addu (w.extractLsb' 11 5) (w.extractLsb' 21 5) (w.extractLsb' 16 5)) ∧
  Selects 0xFC00003F 0x00000023 (fun w => .subu (w.extractLsb' 11 5) (w.extractLsb' 21 5) (w.extractLsb' 16 5))

/-- R132 (and the same of R144, R145): the trapping form is the wrapping form or a bare trap. -/
def Obligations.TrappingAgreesWithWrapping : Prop :=
  ∀ (rd rs rt : RegIdx) (imm : Half) (s : State),
    (exec (.add rd rs rt) s = exec (.addu rd rs rt) s ∨ exec (.add rd rs rt) s = .next { s with result := some 1#32 }) ∧
    (exec (.sub rd rs rt) s = exec (.subu rd rs rt) s ∨ exec (.sub rd rs rt) s = .next { s with result := some 1#32 }) ∧
    (exec (.addi rt rs imm) s = exec (.addiu rt rs imm) s ∨
      exec (.addi rt rs imm) s = .next { s with result := some 1#32 })

/-- R125, R126, R127, R128, the value said bit by bit. -/
def Obligations.BitwiseLogic : Prop :=
  (∀ (rd rs rt : RegIdx) (s : State), ∃ va vo vx vn : Word,
    (∀ i < 32, va.getLsbD i = ((s.reg rs).getLsbD i && (s.reg rt).getLsbD i) ∧
      vo.getLsbD i = ((s.reg rs).getLsbD i || (s.reg rt).getLsbD i) ∧
      vx.getLsbD i = ((s.reg rs).getLsbD i != (s.reg rt).getLsbD i) ∧
      vn.getLsbD i = !((s.reg rs).getLsbD i || (s.reg rt).getLsbD i)) ∧
    Completes (exec (.and rd rs rt) s) s { After.same s with regs := written s rd va } ∧
    Completes (exec (.or rd rs rt) s) s { After.same s with regs := written s rd vo } ∧
    Completes (exec (.xor rd rs rt) s) s { After.same s with regs := written s rd vx } ∧
    Completes (exec (.nor rd rs rt) s) s { After.same s with regs := written s rd vn }) ∧
  Selects 0xFC00003F 0x00000024 (fun w => .and (w.extractLsb' 11 5) (w.extractLsb' 21 5) (w.extractLsb' 16 5)) ∧
  Selects 0xFC00003F 0x00000025 (fun w => .or (w.extractLsb' 11 5) (w.extractLsb' 21 5) (w.extractLsb' 16 5)) ∧
  Selects 0xFC00003F 0x00000026 (fun w => .xor (w.extractLsb' 11 5) (w.extractLsb' 21 5) (w.extractLsb' 16 5)) ∧
  Selects 0xFC00003F 0x00000027 (fun w => .nor (w.extractLsb' 11 5) (w.extractLsb' 21 5) (w.extractLsb' 16 5))

/-- R129, R130. -/
def Obligations.SetLessThan : Prop :=
  (∀ (rd rs rt : RegIdx) (s : State),
    Completes (exec (.slt rd rs rt) s) s
      { After.same s with regs := written s rd (if (s.reg rs).toInt < (s.reg rt).toInt then 1#32 else 0#32) } ∧
    Completes (exec (.sltu rd rs rt) s) s
      { After.same s with regs := written s rd (if (s.reg rs).toNat < (s.reg rt).toNat then 1#32 else 0#32) }) ∧
  Selects 0xFC00003F 0x0000002A (fun w => .slt (w.extractLsb' 11 5) (w.extractLsb' 21 5) (w.extractLsb' 16 5)) ∧
  Selects 0xFC00003F 0x0000002B (fun w => .sltu (w.extractLsb' 11 5) (w.extractLsb' 21 5) (w.extractLsb' 16 5))

/-- R135 to R140 (the frame is R134's): the code says whether it trapped, the state does not change. -/
def Obligations.ConditionalTraps : Prop :=
  (∀ (rs rt : RegIdx) (s : State),
    Completes (exec (.tge rs rt) s) s
      { After.same s with code := if (s.reg rs).toInt ≥ (s.reg rt).toInt then 1#32 else 0#32 } ∧
    Completes (exec (.tgeu rs rt) s) s
      { After.same s with code := if (s.reg rs).toNat ≥ (s.reg rt).toNat then 1#32 else 0#32 } ∧
    Completes (exec (.tlt rs rt) s) s
      { After.same s with code := if (s.reg rs).toInt < (s.reg rt).toInt then 1#32 else 0#32 } ∧
    Completes (exec (.tltu rs rt) s) s
      { After.same s with code := if (s.reg rs).toNat < (s.reg rt).toNat then 1#32 else 0#32 } ∧
    Completes (exec (.teq rs rt) s) s
      { After.same s with code := if (s.reg rs).toNat = (s.reg rt).toNat then 1#32 else 0#32 } ∧
    Completes (exec (.tne rs rt) s) s
      { After.same s with code := if (s.reg rs).toNat ≠ (s.reg rt).toNat then 1#32 else 0#32 }) ∧
  Selects 0xFC00003F 0x00000030 (fun w => .tge (w.extractLsb' 21 5) (w.extractLsb' 16 5)) ∧
  Selects 0xFC00003F 0x00000031 (fun w => .tgeu (w.extractLsb' 21 5) (w.extractLsb' 16 5)) ∧
  Selects 0xFC00003F 0x00000032 (fun w => .tlt (w.extractLsb' 21 5) (w.extractLsb' 16 5)) ∧
  Selects 0xFC00003F 0x00000033 (fun w => .tltu (w.extractLsb' 21 5) (w.extractLsb' 16 5)) ∧
  Selects 0xFC00003F 0x00000034 (fun w => .teq (w.extractLsb' 21 5) (w.extractLsb' 16 5)) ∧
  Selects 0xFC00003F 0x00000036 (fun w => .tne (w.extractLsb' 21 5) (w.extractLsb' 16 5))

/-- R144, R145; `u(sext_32(imm))` is `u(imm)` plus 0xFFFF0000 when bit 15 of `imm` is set (R55). -/
def Obligations.AddImmediate : Prop :=
  (∀ (rt rs : RegIdx) (imm : Half) (s : State),
    (∃ t : Int, t = (s.reg rs).toInt + imm.toInt ∧
      Completes (exec (.addi rt rs imm) s) s
        (if 2147483647 < t ∨ t < -2147483648 then { After.same s with code := 1#32 }
         else { After.same s with regs := written s rt (BitVec.ofInt 32 t) })) ∧
    Completes (exec (.addiu rt rs imm) s) s
      { After.same s with
        regs := written s rt (BitVec.ofNat 32
          ((s.reg rs).toNat + (imm.toNat + if imm.getLsbD 15 then 0xFFFF0000 else 0))) }) ∧
  Selects 0xFC000000 0x20000000 (fun w => .addi (w.extractLsb' 16 5) (w.extractLsb' 21 5) (w.extractLsb' 0 16)) ∧
  Selects 0xFC000000 0x24000000 (fun w => .addiu (w.extractLsb' 16 5) (w.extractLsb' 21 5) (w.extractLsb' 0 16))

/-- R147. -/
def Obligations.SetLessThanImmediate : Prop :=
  (∀ (rt rs : RegIdx) (imm : Half) (s : State),
    Completes (exec (.slti rt rs imm) s) s
      { After.same s with regs := written s rt (if (s.reg rs).toInt < imm.toInt then 1#32 else 0#32) }) ∧
  Selects 0xFC000000 0x28000000 (fun w => .slti (w.extractLsb' 16 5) (w.extractLsb' 21 5) (w.extractLsb' 0 16))

/-- R148. The extension is provisional in the source (D16, log 18), so the statement is derived. -/
def Obligations.SetLessThanImmediateUnsigned : Prop :=
  (∀ (rt rs : RegIdx) (imm : Half) (s : State),
    Completes (exec (.sltiu rt rs imm) s) s
      { After.same s with
        regs := written s rt (if (s.reg rs).toNat < imm.toNat + (if imm.getLsbD 15 then 0xFFFF0000 else 0)
          then 1#32 else 0#32) }) ∧
  Selects 0xFC000000 0x2C000000 (fun w => .sltiu (w.extractLsb' 16 5) (w.extractLsb' 21 5) (w.extractLsb' 0 16))

/-- R149, R150, R151, the value said bit by bit. -/
def Obligations.LogicImmediate : Prop :=
  (∀ (rt rs : RegIdx) (imm : Half) (s : State), ∃ va vo vx : Word,
    (∀ i < 32, va.getLsbD i = (decide (i < 16) && ((s.reg rs).getLsbD i && imm.getLsbD i)) ∧
      vo.getLsbD i = (if i < 16 then (s.reg rs).getLsbD i || imm.getLsbD i else (s.reg rs).getLsbD i) ∧
      vx.getLsbD i = (if i < 16 then (s.reg rs).getLsbD i != imm.getLsbD i else (s.reg rs).getLsbD i)) ∧
    Completes (exec (.andi rt rs imm) s) s { After.same s with regs := written s rt va } ∧
    Completes (exec (.ori rt rs imm) s) s { After.same s with regs := written s rt vo } ∧
    Completes (exec (.xori rt rs imm) s) s { After.same s with regs := written s rt vx }) ∧
  Selects 0xFC000000 0x30000000 (fun w => .andi (w.extractLsb' 16 5) (w.extractLsb' 21 5) (w.extractLsb' 0 16)) ∧
  Selects 0xFC000000 0x34000000 (fun w => .ori (w.extractLsb' 16 5) (w.extractLsb' 21 5) (w.extractLsb' 0 16)) ∧
  Selects 0xFC000000 0x38000000 (fun w => .xori (w.extractLsb' 16 5) (w.extractLsb' 21 5) (w.extractLsb' 0 16))

/-- R152. -/
def Obligations.LoadUpperKeepsLow : Prop :=
  (∀ (rt rs : RegIdx) (imm : Half) (s : State),
    Completes (exec (.lui rt rs imm) s) s
      { After.same s with
        regs := written s rt (BitVec.ofNat 32 (imm.toNat * 65536 + (s.reg rs).toNat % 65536)) }) ∧
  Selects 0xFC000000 0x3C000000 (fun w => .lui (w.extractLsb' 16 5) (w.extractLsb' 21 5) (w.extractLsb' 0 16))

/-- R75, whole: one equation for all 43 instructions. -/
def Obligations.ResultCodes : Prop :=
  ∀ (i : Instr) (s : State), ∃ t, exec i s = .next t ∧ t.result = some (match i with
    | .add _ rs rt =>
      if (s.reg rs).toInt + (s.reg rt).toInt < -2147483648 ∨ 2147483647 < (s.reg rs).toInt + (s.reg rt).toInt
      then 1#32 else 0#32
    | .sub _ rs rt =>
      if (s.reg rs).toInt - (s.reg rt).toInt < -2147483648 ∨ 2147483647 < (s.reg rs).toInt - (s.reg rt).toInt
      then 1#32 else 0#32
    | .addi _ rs imm =>
      if (s.reg rs).toInt + imm.toInt < -2147483648 ∨ 2147483647 < (s.reg rs).toInt + imm.toInt
      then 1#32 else 0#32
    | .tge rs rt => if (s.reg rt).toInt ≤ (s.reg rs).toInt then 1#32 else 0#32
    | .tgeu rs rt => if (s.reg rt).toNat ≤ (s.reg rs).toNat then 1#32 else 0#32
    | .tlt rs rt => if (s.reg rs).toInt < (s.reg rt).toInt then 1#32 else 0#32
    | .tltu rs rt => if (s.reg rs).toNat < (s.reg rt).toNat then 1#32 else 0#32
    | .teq rs rt => if s.reg rs = s.reg rt then 1#32 else 0#32
    | .tne rs rt => if s.reg rs = s.reg rt then 0#32 else 1#32
    | .brk rs rt rd shamt => BitVec.ofNat 32 (rs.toNat * 65536 + shamt.toNat) ||| breakMid rt rd
    | _ => 0#32)

/-- R13; `destination` is its table. -/
def Obligations.RegisterWriters : Prop :=
  ∀ (i : Instr) (s t : State) (j : RegIdx), exec i s = .next t → (destination i ≠ some j ∨ j = 0#5) →
    t.reg j = s.reg j

/-- R97. -/
def Obligations.SequentialFlow : Prop :=
  ∀ (i : Instr) (s t : State), decodeWord (s.mem.readWord s.pc.toNat) = some i → isJump i = false →
    step s = .next t → t.pc = BitVec.ofNat 32 (s.pc.toNat + 4)

/-- R172: one trap code for all causes, the destination not written, `pc = npc`. -/
def Obligations.TrapChangesOnlyPc : Prop :=
  ∀ (i : Instr) (s t : State), decodeWord (s.mem.readWord s.pc.toNat) = some i → canTrap i = true →
    step s = .next t →
    (t.result = some 1#32 → t = { s with pc := BitVec.ofNat 32 (s.pc.toNat + 4), result := some 1#32 }) ∧
    (t.result = some 0#32 ∨ t.result = some 1#32)

/-- R18: inside an instruction `pc` is read by `jalr` only, whose link JumpAndLink states. For `div` and `divu` with a zero
divisor the equation leans on the model's choice of log 12 (DESIGN CHOICE): `DIV0` is a function of signedness, dividend and
draw, so two runs with equal draws get equal `HI` and `LO`. R115 forbids assuming that of the hardware, and nothing more is
to be read from this statement there. -/
def Obligations.PcReaders : Prop :=
  ∀ (i : Instr) (s t : State) (p : Word), exec i s = .next t →
    (isJump i = false → exec i (s.setPc p) = .next (t.setPc p)) ∧
    ((∃ rs, i = .jr rs) → exec i (s.setPc p) = .next t)

/-- R43: no instruction writes memory; R30: the capacity never changes. -/
def Obligations.StepKeepsMemory : Prop :=
  ∀ (s t : State), step s = .next t →
    t.mem = s.mem ∧ t.memCapacity = s.memCapacity ∧ ∀ addr, t.loadByte addr = s.loadByte addr

/-- R71. Every `Instr` is well formed (its operands are exactly the fields' widths). -/
def Obligations.StepRunsDecodedInstruction : Prop :=
  ∀ (i : Instr) (s : State), s.pc.toNat + 4 ≤ s.memCapacity →
    decodeWord (s.mem.read (s.pc.toNat + 3) ++ s.mem.read (s.pc.toNat + 2) ++ s.mem.read (s.pc.toNat + 1) ++
      s.mem.read s.pc.toNat) = some i →
    step s = exec i { s with pc := BitVec.ofNat 32 (s.pc.toNat + 4) }

/-- R72, R73, R80: the conditions are the spec's decisions D6 to D8 (log 2, 9), so derived. -/
def Obligations.StepOutcomes : Prop :=
  ∀ s : State,
    if s.memCapacity < s.pc.toNat + 4 then step s = .fault (.addressOutOfRange s.pc 4)
    else if decodeWord (s.mem.readWord s.pc.toNat) = none then
      step s = .fault (.invalidOperation (s.mem.readWord s.pc.toNat))
    else ∃ t c, step s = .next t ∧ t.result = some c

/-- R61 (the spec's decision D14, log 16). -/
def Obligations.InvalidEncodings : Prop :=
  ∀ w : Word, decodeWord w = none ↔
    ((w.extractLsb' 26 6).toNat = 0 ∧ (w.extractLsb' 0 6).toNat ∈
      [1, 5, 12, 14, 15, 20, 21, 22, 23, 28, 29, 30, 31, 40, 41, 44, 45, 46, 47, 53, 55, 56, 57, 58, 59, 60, 61, 62,
       63]) ∨
    (1 ≤ (w.extractLsb' 26 6).toNat ∧ (w.extractLsb' 26 6).toNat ≤ 7) ∨ 16 ≤ (w.extractLsb' 26 6).toNat

/-- R59; `opcodeTable`, `tableMask`, `tableMatch` are the table's own numbers. -/
def Obligations.DecoderFollowsTable : Prop :=
  opcodeTable.length = 43 ∧
  (∀ (w : Word) (i : Instr), decodeWord w = some i → w &&& tableMask i = tableMatch i) ∧
  (∀ w : Word, decodeWord w = none ↔ ∀ row ∈ opcodeTable, w &&& row.1 ≠ row.2) ∧
  opcodeTable.Pairwise (fun p q => ∀ w : Word, ¬ (w &&& p.1 = p.2 ∧ w &&& q.1 = q.2)) ∧
  ∀ row ∈ opcodeTable, ∃ (w : Word) (i : Instr), decodeWord w = some i ∧ row = (tableMask i, tableMatch i)

/-- R65: the encoder is the inverse of the decoder on the 43 patterns. Bit positions: D1 (log 6). -/
def Obligations.DecodeEncode : Prop :=
  ∀ (i : Instr) (rest : List Byte),
    decodeWord (encode i) = some i ∧ decode (bytesOfWord (encode i) ++ rest) = .ok (i, rest)

/-- R54 (the spec's decision D15, log 17); `usedBits` is the table's own field use. -/
def Obligations.IgnoredFields : Prop :=
  ∀ (w : Word) (i : Instr), decodeWord w = some i →
    encode i = w &&& usedBits i ∧ ∀ w' : Word, w' &&& usedBits i = w &&& usedBits i → decodeWord w' = some i

/-- R66. -/
def Obligations.WorkedEncodings : Prop :=
  ∀ p ∈ ([(0x00011000#32, .sll 2#5 1#5 0#5), (0x00011102#32, .srl 2#5 1#5 4#5), (0x00011103#32, .sra 2#5 1#5 4#5),
      (0x00221820#32, .add 3#5 1#5 2#5), (0x00221821#32, .addu 3#5 1#5 2#5), (0x00220018#32, .mult 1#5 2#5),
      (0x0022001A#32, .div 1#5 2#5), (0x00001810#32, .mfhi 3#5), (0x00002012#32, .mflo 4#5),
      (0x00200008#32, .jr 1#5), (0x00200009#32, .jalr 1#5), (0x0200048D#32, .brk 16#5 0#5 0#5 18#5),
      (0x3C22AAAA#32, .lui 2#5 1#5 0xAAAA#16), (0x2401FFFF#32, .addiu 1#5 0#5 0xFFFF#16)] : List (Word × Instr)),
    decodeWord p.1 = some p.2 ∧ encode p.2 = p.1

/-- The invariant of a constructed machine, kept by every step (not only on runs from reset). -/
def Obligations.StepKeepsInvariant : Prop :=
  ∀ (s t : State), s.Inv → step s = .next t →
    t.Inv ∧ t.memCapacity = s.memCapacity ∧ t.reg 0#5 = 0#32 ∧ t.result.isSome = true

/-- R40, R156: the host's moves in the order it issues them; stores keep memory canonical and in range. -/
def Obligations.HostRunKeepsInvariant : Prop :=
  ∀ (ops : List HostOp) (s : State), s.Inv →
    (s.performAll ops).2.Inv ∧ (s.performAll ops).2.memCapacity = s.memCapacity ∧
    (s.performAll ops).1.length = ops.length

/-- R190; the capacity 2^32 is the model's choice (log 3). -/
def Obligations.ResetMeetsInvariant : Prop :=
  State.reset.Inv ∧ State.construct Config.maxCapacity [] = some State.reset

/-- R192 (the spec's decision D17, log 19). -/
def Obligations.ConstructionInvariant : Prop :=
  ∀ (capacity : Nat) (program : List Word),
    (State.construct capacity program = none ↔ 4294967296 < capacity ∨ capacity < 4 * program.length) ∧
    ∀ s, State.construct capacity program = some s → s.Inv ∧ s.memCapacity = capacity

/-- R24, R190. Memory is stated; pc is the spec's D2 (log 5), the registers its D3 (log 4), the result the model's (log 1). -/
def Obligations.ResetValues : Prop :=
  (∀ k, State.reset.mem.read k = 0#8) ∧ State.reset.pc = 0#32 ∧ (∀ i, State.reset.reg i = 0#32) ∧
    State.reset.hi = 0#32 ∧ State.reset.lo = 0#32 ∧ State.reset.result = none

/-- R191. -/
def Obligations.ProgramLoad : Prop :=
  ∀ (capacity : Nat) (program : List Word), 4 * program.length ≤ capacity → capacity ≤ 4294967296 →
    ∃ s, State.construct capacity program = some s ∧
      (∀ (k : Nat) (hk : k < program.length),
        s.mem.read (4 * k) = program[k].extractLsb' 0 8 ∧ s.mem.read (4 * k + 1) = program[k].extractLsb' 8 8 ∧
        s.mem.read (4 * k + 2) = program[k].extractLsb' 16 8 ∧ s.mem.read (4 * k + 3) = program[k].extractLsb' 24 8) ∧
      ∀ a, 4 * program.length ≤ a → s.mem.read a = 0#8

/-- R34. The premise `s.mem.wf` is the invariant every operation keeps (HostRunKeepsInvariant). -/
def Obligations.StoreWritesExactly : Prop :=
  ∀ (s : State) (addr v : Word) (b : Byte), s.mem.wf →
    (addr.toNat + 4 ≤ s.memCapacity → ∃ m, s.perform (.storeWord v addr) = (.done, { s with mem := m }) ∧
      ∀ a, m.read a = if a = addr.toNat then v.extractLsb' 0 8 else if a = addr.toNat + 1 then v.extractLsb' 8 8
        else if a = addr.toNat + 2 then v.extractLsb' 16 8 else if a = addr.toNat + 3 then v.extractLsb' 24 8
        else s.mem.read a) ∧
    (addr.toNat + 1 ≤ s.memCapacity → ∃ m, s.perform (.storeByte b addr) = (.done, { s with mem := m }) ∧
      ∀ a, m.read a = if a = addr.toNat then b else s.mem.read a)

/-- R33: the composition said as a sum of weighted bytes. -/
def Obligations.LoadReads : Prop :=
  ∀ (s : State) (addr : Word),
    (addr.toNat + 1 ≤ s.memCapacity → s.perform (.loadByte addr) = (.byte (s.mem.read addr.toNat), s)) ∧
    (addr.toNat + 4 ≤ s.memCapacity → s.perform (.loadWord addr) = (.word (BitVec.ofNat 32
      ((s.mem.read addr.toNat).toNat + 256 * (s.mem.read (addr.toNat + 1)).toNat +
        65536 * (s.mem.read (addr.toNat + 2)).toNat + 16777216 * (s.mem.read (addr.toNat + 3)).toNat)), s))

/-- R35; unaligned addresses rest on the spec's D5 (log 8), so derived. -/
def Obligations.StoreThenLoadWord : Prop :=
  ∀ (s : State) (addr v : Word), s.Inv → addr.toNat + 4 ≤ s.memCapacity →
    (s.performAll [.storeWord v addr, .loadWord addr]).1 = [.done, .word v] ∧
    (s.performAll [.storeByte (v.extractLsb' 0 8) addr, .storeByte (v.extractLsb' 8 8) (addr + 1#32),
      .storeByte (v.extractLsb' 16 8) (addr + 2#32), .storeByte (v.extractLsb' 24 8) (addr + 3#32),
      .loadWord addr]).1 = [.done, .done, .done, .done, .word v]

/-- R36, R161 (the spec's decision D6, log 9). -/
def Obligations.OutOfRangeAccess : Prop :=
  ∀ (s : State) (addr v : Word) (b : Byte),
    (s.memCapacity < addr.toNat + 1 →
      s.perform (.loadByte addr) = (.error (.addressOutOfRange addr 1), s) ∧
      s.perform (.storeByte b addr) = (.error (.addressOutOfRange addr 1), s)) ∧
    (s.memCapacity < addr.toNat + 4 →
      s.perform (.loadWord addr) = (.error (.addressOutOfRange addr 4), s) ∧
      s.perform (.storeWord v addr) = (.error (.addressOutOfRange addr 4), s))

/-- R158, R159, R169 (an index above 31 can be said: the spec's D22, log 21). -/
def Obligations.RegisterAccessors : Prop :=
  ∀ (s : State) (n m : Nat) (v : Word),
    (if n < 32 then (s.perform (.setRegister n v)).1 = .done
      else s.perform (.setRegister n v) = (.error (.registerIndexOutOfRange n), s)) ∧
    (if m < 32 then
      (s.perform (.setRegister n v)).2.perform (.getRegister m) =
        (.word (if m = 0 then 0#32 else if m = n then v else s.reg (BitVec.ofNat 5 m)),
          (s.perform (.setRegister n v)).2)
      else s.perform (.getRegister m) = (.error (.registerIndexOutOfRange m), s))

/-- R165, R170, R178 (D7, D8: log 1, 2) and R78: the machine stays usable after an error. -/
def Obligations.HostStep : Prop :=
  ∀ s : State,
    (∃ t c, step s = .next t ∧ t.result = some c ∧ s.perform .step = (.code c, t)) ∨
    (∃ e, step s = .fault e ∧ s.perform .step = (.error e, s) ∧
      s.performAll [.step, .step] = ([.error e, .error e], s))

/-- R42: no intervening action is needed. -/
def Obligations.FetchSeesStore : Prop :=
  ∀ (s : State) (w : Word) (i : Instr), s.mem.wf → s.pc.toNat + 4 ≤ s.memCapacity → decodeWord w = some i →
    ∃ t, s.perform (.storeWord w s.pc) = (.done, t) ∧ t.gpr = s.gpr ∧ t.pc = s.pc ∧ step t = exec i t.advance
end

