-- ==== Sys2Proof/Laws/State.lean ====
section
/-! SUPPORT. One lemma per field per update of the state, so that no later proof unfolds a record update. -/

namespace Sys2Proof.Machine

@[simp] theorem State.setHi_gpr (s : State) (v : Word) : (s.setHi v).gpr = s.gpr := rfl
@[simp] theorem State.setHi_hi (s : State) (v : Word) : (s.setHi v).hi = v := rfl
@[simp] theorem State.setHi_lo (s : State) (v : Word) : (s.setHi v).lo = s.lo := rfl
@[simp] theorem State.setHi_pc (s : State) (v : Word) : (s.setHi v).pc = s.pc := rfl
@[simp] theorem State.setHi_mem (s : State) (v : Word) : (s.setHi v).mem = s.mem := rfl
@[simp] theorem State.setHi_memCapacity (s : State) (v : Word) : (s.setHi v).memCapacity = s.memCapacity := rfl
@[simp] theorem State.setHi_result (s : State) (v : Word) : (s.setHi v).result = s.result := rfl
@[simp] theorem State.setHi_draws (s : State) (v : Word) : (s.setHi v).draws = s.draws := rfl

@[simp] theorem State.setHi_reg (s : State) (v : Word) (i : RegIdx) : (s.setHi v).reg i = s.reg i := rfl

@[simp] theorem State.setLo_gpr (s : State) (v : Word) : (s.setLo v).gpr = s.gpr := rfl
@[simp] theorem State.setLo_hi (s : State) (v : Word) : (s.setLo v).hi = s.hi := rfl
@[simp] theorem State.setLo_lo (s : State) (v : Word) : (s.setLo v).lo = v := rfl
@[simp] theorem State.setLo_pc (s : State) (v : Word) : (s.setLo v).pc = s.pc := rfl
@[simp] theorem State.setLo_mem (s : State) (v : Word) : (s.setLo v).mem = s.mem := rfl
@[simp] theorem State.setLo_memCapacity (s : State) (v : Word) : (s.setLo v).memCapacity = s.memCapacity := rfl
@[simp] theorem State.setLo_result (s : State) (v : Word) : (s.setLo v).result = s.result := rfl
@[simp] theorem State.setLo_draws (s : State) (v : Word) : (s.setLo v).draws = s.draws := rfl

@[simp] theorem State.setLo_reg (s : State) (v : Word) (i : RegIdx) : (s.setLo v).reg i = s.reg i := rfl

@[simp] theorem State.setPc_gpr (s : State) (v : Word) : (s.setPc v).gpr = s.gpr := rfl
@[simp] theorem State.setPc_hi (s : State) (v : Word) : (s.setPc v).hi = s.hi := rfl
@[simp] theorem State.setPc_lo (s : State) (v : Word) : (s.setPc v).lo = s.lo := rfl
@[simp] theorem State.setPc_pc (s : State) (v : Word) : (s.setPc v).pc = v := rfl
@[simp] theorem State.setPc_mem (s : State) (v : Word) : (s.setPc v).mem = s.mem := rfl
@[simp] theorem State.setPc_memCapacity (s : State) (v : Word) : (s.setPc v).memCapacity = s.memCapacity := rfl
@[simp] theorem State.setPc_result (s : State) (v : Word) : (s.setPc v).result = s.result := rfl
@[simp] theorem State.setPc_draws (s : State) (v : Word) : (s.setPc v).draws = s.draws := rfl

@[simp] theorem State.setPc_reg (s : State) (v : Word) (i : RegIdx) : (s.setPc v).reg i = s.reg i := rfl

@[simp] theorem State.setResult_gpr (s : State) (c : Word) : (s.setResult c).gpr = s.gpr := rfl
@[simp] theorem State.setResult_hi (s : State) (c : Word) : (s.setResult c).hi = s.hi := rfl
@[simp] theorem State.setResult_lo (s : State) (c : Word) : (s.setResult c).lo = s.lo := rfl
@[simp] theorem State.setResult_pc (s : State) (c : Word) : (s.setResult c).pc = s.pc := rfl
@[simp] theorem State.setResult_mem (s : State) (c : Word) : (s.setResult c).mem = s.mem := rfl
@[simp] theorem State.setResult_memCapacity (s : State) (c : Word) : (s.setResult c).memCapacity = s.memCapacity := rfl
@[simp] theorem State.setResult_result (s : State) (c : Word) : (s.setResult c).result = some c := rfl
@[simp] theorem State.setResult_draws (s : State) (c : Word) : (s.setResult c).draws = s.draws := rfl

@[simp] theorem State.setResult_reg (s : State) (c : Word) (i : RegIdx) : (s.setResult c).reg i = s.reg i := rfl

@[simp] theorem State.drawn_gpr (s : State) : (s.drawn).gpr = s.gpr := rfl
@[simp] theorem State.drawn_hi (s : State) : (s.drawn).hi = s.hi := rfl
@[simp] theorem State.drawn_lo (s : State) : (s.drawn).lo = s.lo := rfl
@[simp] theorem State.drawn_pc (s : State) : (s.drawn).pc = s.pc := rfl
@[simp] theorem State.drawn_mem (s : State) : (s.drawn).mem = s.mem := rfl
@[simp] theorem State.drawn_memCapacity (s : State) : (s.drawn).memCapacity = s.memCapacity := rfl
@[simp] theorem State.drawn_result (s : State) : (s.drawn).result = s.result := rfl
@[simp] theorem State.drawn_draws (s : State) : (s.drawn).draws = s.draws + 1 := rfl

@[simp] theorem State.drawn_reg (s : State) (i : RegIdx) : (s.drawn).reg i = s.reg i := rfl

@[simp] theorem State.setReg_hi (s : State) (i : RegIdx) (v : Word) : (s.setReg i v).hi = s.hi := by
  unfold State.setReg; split <;> rfl
@[simp] theorem State.setReg_lo (s : State) (i : RegIdx) (v : Word) : (s.setReg i v).lo = s.lo := by
  unfold State.setReg; split <;> rfl
@[simp] theorem State.setReg_pc (s : State) (i : RegIdx) (v : Word) : (s.setReg i v).pc = s.pc := by
  unfold State.setReg; split <;> rfl
@[simp] theorem State.setReg_mem (s : State) (i : RegIdx) (v : Word) : (s.setReg i v).mem = s.mem := by
  unfold State.setReg; split <;> rfl
@[simp] theorem State.setReg_memCapacity (s : State) (i : RegIdx) (v : Word) : (s.setReg i v).memCapacity = s.memCapacity := by
  unfold State.setReg; split <;> rfl
@[simp] theorem State.setReg_result (s : State) (i : RegIdx) (v : Word) : (s.setReg i v).result = s.result := by
  unfold State.setReg; split <;> rfl
@[simp] theorem State.setReg_draws (s : State) (i : RegIdx) (v : Word) : (s.setReg i v).draws = s.draws := by
  unfold State.setReg; split <;> rfl

@[simp] theorem State.advance_pc (s : State) : s.advance.pc = npc s.pc := rfl
@[simp] theorem State.advance_gpr (s : State) : s.advance.gpr = s.gpr := rfl
@[simp] theorem State.advance_hi (s : State) : s.advance.hi = s.hi := rfl
@[simp] theorem State.advance_lo (s : State) : s.advance.lo = s.lo := rfl
@[simp] theorem State.advance_mem (s : State) : s.advance.mem = s.mem := rfl
@[simp] theorem State.advance_memCapacity (s : State) : s.advance.memCapacity = s.memCapacity := rfl
@[simp] theorem State.advance_result (s : State) : s.advance.result = s.result := rfl
@[simp] theorem State.advance_draws (s : State) : s.advance.draws = s.draws := rfl
@[simp] theorem State.advance_reg (s : State) (i : RegIdx) : s.advance.reg i = s.reg i := rfl

end Sys2Proof.Machine
end

