-- ==== Sys2Proof/Laws/Memory.lean ====
section
/-! SUPPORT. Memory: every operation keeps the canonical form, and a read after a write gives the byte written there
and the old byte everywhere else (20_memory.md R33, R34, R40). -/

namespace Sys2Proof.Machine

/-! ### The canonical form -/

theorem Memory.mem_write {m : Memory} {k : Nat} {v : Byte} {c : Host.Cell} (h : c ∈ m.write k v) :
    c ∈ m ∨ (c = (k, v) ∧ v ≠ 0#8) := by
  induction m with
  | nil => by_cases hv : v = 0#8 <;> simp_all [Memory.write]
  | cons d m ih =>
    obtain ⟨a, b⟩ := d
    unfold Memory.write at h
    split_ifs at h with h1 hv h2 hv
    · exact .inl h
    · rcases List.mem_cons.1 h with rfl | h
      · exact .inr ⟨rfl, hv⟩
      · exact .inl h
    · exact .inl (List.mem_cons_of_mem _ h)
    · rcases List.mem_cons.1 h with rfl | h
      · exact .inr ⟨rfl, hv⟩
      · exact .inl (List.mem_cons_of_mem _ h)
    · rcases List.mem_cons.1 h with rfl | h
      · exact .inl (List.mem_cons_self)
      · exact (ih h).imp_left (List.mem_cons_of_mem _)

theorem Memory.wf_tail {c : Host.Cell} {m : Memory} (h : Memory.wf (c :: m)) : Memory.wf m :=
  ⟨(List.pairwise_cons.1 h.1).2, fun d hd => h.2 d (List.mem_cons_of_mem _ hd)⟩

/-- A byte write keeps the canonical form. -/
theorem Memory.write_wf {m : Memory} (h : m.wf) (k : Nat) (v : Byte) : (m.write k v).wf := by
  induction m with
  | nil => by_cases hv : v = 0#8 <;> simp [Memory.write, Memory.wf, hv]
  | cons d m ih =>
    obtain ⟨a, b⟩ := d
    have ht := Memory.wf_tail h
    have hab := (List.pairwise_cons.1 h.1).1
    have hb := h.2 _ (List.mem_cons_self)
    unfold Memory.write
    split_ifs with h1 hv h2 hv
    · exact h
    · refine ⟨List.pairwise_cons.2 ⟨?_, h.1⟩, ?_⟩
      · intro c hc
        rcases List.mem_cons.1 hc with rfl | hc
        · exact h1
        · exact Nat.lt_trans h1 (hab c hc)
      · intro c hc
        rcases List.mem_cons.1 hc with rfl | hc
        · exact hv
        · exact h.2 c hc
    · exact ht
    · subst h2
      refine ⟨List.pairwise_cons.2 ⟨hab, ht.1⟩, ?_⟩
      intro c hc
      rcases List.mem_cons.1 hc with rfl | hc
      · exact hv
      · exact ht.2 c hc
    · have hw := ih ht
      refine ⟨List.pairwise_cons.2 ⟨?_, hw.1⟩, ?_⟩
      · intro c hc
        rcases Memory.mem_write hc with hc | ⟨rfl, -⟩
        · exact hab c hc
        · show a < k; omega
      · intro c hc
        rcases List.mem_cons.1 hc with rfl | hc
        · exact hb
        · exact hw.2 c hc

/-- A word write keeps the canonical form. -/
theorem Memory.writeWord_wf {m : Memory} (h : m.wf) (k : Nat) (v : Word) : (m.writeWord k v).wf :=
  Memory.write_wf (Memory.write_wf (Memory.write_wf (Memory.write_wf h _ _) _ _) _ _) _ _

/-- Loading a program keeps the canonical form. -/
theorem Memory.load_wf {m : Memory} (h : m.wf) (k : Nat) (ws : List Word) : (m.load k ws).wf := by
  induction ws generalizing m k with
  | nil => exact h
  | cons w ws ih => exact ih (Memory.writeWord_wf h k w) (k + 4)

theorem State.reset_mem_wf : State.reset.mem.wf := by decide

/-! ### Reading -/

theorem Memory.read_eq_zero {m : Memory} {j : Nat} (h : ∀ c ∈ m, j < c.1) : m.read j = 0#8 := by
  induction m with
  | nil => rfl
  | cons d m ih =>
    have := h d (List.mem_cons_self)
    unfold Memory.read
    rw [if_neg (by omega), ih (fun c hc => h c (List.mem_cons_of_mem _ hc))]

/-- A byte read after a byte write. -/
theorem Memory.read_write {m : Memory} (h : m.wf) (k j : Nat) (v : Byte) :
    (m.write k v).read j = if j = k then v else m.read j := by
  induction m with
  | nil => by_cases hv : v = 0#8 <;> by_cases hj : j = k <;> simp [Memory.write, Memory.read, hv, hj]
  | cons d m ih =>
    obtain ⟨a, b⟩ := d
    have hab := (List.pairwise_cons.1 h.1).1
    by_cases h1 : k < a
    · have hz : Memory.read ((a, b) :: m) k = 0#8 := Memory.read_eq_zero (fun c hc => by
        rcases List.mem_cons.1 hc with rfl | hc
        · exact h1
        · exact Nat.lt_trans h1 (hab c hc))
      by_cases hv : v = 0#8
      · by_cases hj : j = k
        · subst hj; simp [Memory.write, h1, hv, hz]
        · simp [Memory.write, h1, hv, hj]
      · by_cases hj : j = k <;> simp [Memory.write, h1, hv, hj, Memory.read]
    · by_cases h2 : k = a
      · subst h2
        by_cases hv : v = 0#8
        · by_cases hj : j = k
          · subst hj
            simp [Memory.write, hv, Memory.read_eq_zero (m := m) hab]
          · simp [Memory.write, hv, hj, Memory.read]
        · by_cases hj : j = k <;> simp [Memory.write, hv, hj, Memory.read]
      · have := ih (Memory.wf_tail h)
        by_cases hj : j = a
        · subst hj; simp [Memory.write, h1, h2, Memory.read, Ne.symm h2]
        · simp [Memory.write, h1, h2, Memory.read, hj, this]

/-- A byte read after a word write: byte `j - k` of the word inside its four bytes, the old byte outside. -/
theorem Memory.read_writeWord {m : Memory} (h : m.wf) (k j : Nat) (v : Word) :
    (m.writeWord k v).read j = if k ≤ j ∧ j < k + 4 then byteOfWord v (j - k) else m.read j := by
  have h1 := Memory.write_wf h k (byteOfWord v 0)
  have h2 := Memory.write_wf h1 (k + 1) (byteOfWord v 1)
  have h3 := Memory.write_wf h2 (k + 2) (byteOfWord v 2)
  unfold Memory.writeWord
  rw [Memory.read_write h3, Memory.read_write h2, Memory.read_write h1, Memory.read_write h]
  split_ifs with a b c d e e e e e
  all_goals first
    | (exfalso; omega)
    | rfl
    | (subst_vars; congr 1; omega)

/-- The bytes of a word compose to the word (R32, R33). -/
theorem wordOfBytes_byteOfWord (v : Word) :
    wordOfBytes (byteOfWord v 0) (byteOfWord v 1) (byteOfWord v 2) (byteOfWord v 3) = v := by
  apply BitVec.eq_of_getLsbD_eq
  intro i hi
  simp only [wordOfBytes, byteOfWord, BitVec.getLsbD_append, BitVec.getLsbD_extractLsb']
  by_cases h1 : i < 8
  · simp [h1]
  by_cases h2 : i < 16
  · simp [h1, show i - 8 < 8 by omega, show 8 + (i - 8) = i by omega]
  by_cases h3 : i < 24
  · simp [h1, show ¬ i - 8 < 8 by omega, show i - 8 - 8 < 8 by omega, show 16 + (i - 8 - 8) = i by omega]
  · simp [h1, show ¬ i - 8 < 8 by omega, show ¬ i - 8 - 8 < 8 by omega, show i - 8 - 8 - 8 < 8 by omega,
      show 24 + (i - 8 - 8 - 8) = i by omega]

/-- A word read back where it was written, aligned or not (R35). -/
theorem Memory.readWord_writeWord {m : Memory} (h : m.wf) (k : Nat) (v : Word) :
    (m.writeWord k v).readWord k = v := by
  unfold Memory.readWord
  simp only [Memory.read_writeWord h]
  simp [show k + 1 - k = 1 by omega, show k + 2 - k = 2 by omega, show k + 3 - k = 3 by omega,
    wordOfBytes_byteOfWord]

/-! ### The bound on listed addresses -/

theorem Memory.mem_writeWord {m : Memory} {k : Nat} {v : Word} {c : Host.Cell} (h : c ∈ m.writeWord k v) :
    c ∈ m ∨ c.1 < k + 4 := by
  unfold Memory.writeWord at h
  rcases Memory.mem_write h with h | ⟨rfl, -⟩
  · rcases Memory.mem_write h with h | ⟨rfl, -⟩
    · rcases Memory.mem_write h with h | ⟨rfl, -⟩
      · rcases Memory.mem_write h with h | ⟨rfl, -⟩
        · exact .inl h
        · exact .inr (by simp)
      · exact .inr (by simp)
    · exact .inr (by simp)
  · exact .inr (by simp)

end Sys2Proof.Machine
end

