-- ==== Sys2Proof/Laws/Decode.lean ====
section
/-! SUPPORT. The fields of a packed word, the bytes of a word, and extraction against the opcode table's masks
(30_encoding.md R51 to R54). -/

namespace Sys2Proof

/-! ### Fields of a packed R-type word (R51) -/

section
variable (rs rt rd : RegIdx) (shamt : Shamt) (funct : Six)

@[simp] theorem opcodeOf_packR : opcodeOf (packR rs rt rd shamt funct) = 0#6 := by
  apply BitVec.eq_of_getLsbD_eq; intro i hi
  simp only [opcodeOf, packR, BitVec.getLsbD_extractLsb', BitVec.getLsbD_append]
  simp [show ¬ 26 + i < 6 by omega, show ¬ 26 + i - 6 < 5 by omega, show ¬ 26 + i - 6 - 5 < 5 by omega,
    show ¬ 26 + i - 6 - 5 - 5 < 5 by omega, show ¬ 26 + i - 6 - 5 - 5 - 5 < 5 by omega]

@[simp] theorem rsOf_packR : rsOf (packR rs rt rd shamt funct) = rs := by
  apply BitVec.eq_of_getLsbD_eq; intro i hi
  simp only [rsOf, packR, BitVec.getLsbD_extractLsb', BitVec.getLsbD_append]
  simp [show ¬ 21 + i < 6 by omega, show ¬ 21 + i - 6 < 5 by omega, show ¬ 21 + i - 6 - 5 < 5 by omega,
    show ¬ 21 + i - 6 - 5 - 5 < 5 by omega, show 21 + i - 6 - 5 - 5 - 5 = i by omega, hi]

@[simp] theorem rtOf_packR : rtOf (packR rs rt rd shamt funct) = rt := by
  apply BitVec.eq_of_getLsbD_eq; intro i hi
  simp only [rtOf, packR, BitVec.getLsbD_extractLsb', BitVec.getLsbD_append]
  simp [show ¬ 16 + i < 6 by omega, show ¬ 16 + i - 6 < 5 by omega, show ¬ 16 + i - 6 - 5 < 5 by omega,
    show 16 + i - 6 - 5 - 5 = i by omega, hi]

@[simp] theorem rdOf_packR : rdOf (packR rs rt rd shamt funct) = rd := by
  apply BitVec.eq_of_getLsbD_eq; intro i hi
  simp only [rdOf, packR, BitVec.getLsbD_extractLsb', BitVec.getLsbD_append]
  simp [show ¬ 11 + i < 6 by omega, show ¬ 11 + i - 6 < 5 by omega,
    show 11 + i - 6 - 5 = i by omega, hi]

@[simp] theorem shamtOf_packR : shamtOf (packR rs rt rd shamt funct) = shamt := by
  apply BitVec.eq_of_getLsbD_eq; intro i hi
  simp only [shamtOf, packR, BitVec.getLsbD_extractLsb', BitVec.getLsbD_append]
  simp [show ¬ 6 + i < 6 by omega, show 6 + i - 6 = i by omega, hi]

@[simp] theorem functOf_packR : functOf (packR rs rt rd shamt funct) = funct := by
  apply BitVec.eq_of_getLsbD_eq; intro i hi
  simp only [functOf, packR, BitVec.getLsbD_extractLsb', BitVec.getLsbD_append]
  simp [hi]

end

/-! ### Fields of a packed I-type word (R52) -/

section
variable (opcode : Six) (rs rt : RegIdx) (imm : Half)

@[simp] theorem opcodeOf_packI : opcodeOf (packI opcode rs rt imm) = opcode := by
  apply BitVec.eq_of_getLsbD_eq; intro i hi
  simp only [opcodeOf, packI, BitVec.getLsbD_extractLsb', BitVec.getLsbD_append]
  simp [show ¬ 26 + i < 16 by omega, show ¬ 26 + i - 16 < 5 by omega, show ¬ 26 + i - 16 - 5 < 5 by omega,
    show 26 + i - 16 - 5 - 5 = i by omega, hi]

@[simp] theorem rsOf_packI : rsOf (packI opcode rs rt imm) = rs := by
  apply BitVec.eq_of_getLsbD_eq; intro i hi
  simp only [rsOf, packI, BitVec.getLsbD_extractLsb', BitVec.getLsbD_append]
  simp [show ¬ 21 + i < 16 by omega, show ¬ 21 + i - 16 < 5 by omega,
    show 21 + i - 16 - 5 = i by omega, hi]

@[simp] theorem rtOf_packI : rtOf (packI opcode rs rt imm) = rt := by
  apply BitVec.eq_of_getLsbD_eq; intro i hi
  simp only [rtOf, packI, BitVec.getLsbD_extractLsb', BitVec.getLsbD_append]
  simp [show ¬ 16 + i < 16 by omega, show 16 + i - 16 = i by omega, hi]

@[simp] theorem immOf_packI : immOf (packI opcode rs rt imm) = imm := by
  apply BitVec.eq_of_getLsbD_eq; intro i hi
  simp only [immOf, packI, BitVec.getLsbD_extractLsb', BitVec.getLsbD_append]
  simp [hi]

end

/-! ### A word is the packing of its fields -/

theorem packI_fields (w : Word) : packI (opcodeOf w) (rsOf w) (rtOf w) (immOf w) = w := by
  apply BitVec.eq_of_getLsbD_eq; intro i hi
  simp only [packI, opcodeOf, rsOf, rtOf, immOf, BitVec.getLsbD_append, BitVec.getLsbD_extractLsb']
  by_cases h1 : i < 16
  · simp [h1]
  by_cases h2 : i < 21
  · simp [h1, show i - 16 < 5 by omega, show 16 + (i - 16) = i by omega]
  by_cases h3 : i < 26
  · simp [h1, show ¬ i - 16 < 5 by omega, show i - 16 - 5 < 5 by omega, show 21 + (i - 16 - 5) = i by omega]
  · simp [h1, show ¬ i - 16 < 5 by omega, show ¬ i - 16 - 5 < 5 by omega, show i - 16 - 5 - 5 < 6 by omega,
      show 26 + (i - 16 - 5 - 5) = i by omega]

theorem packR_fields {w : Word} (h : opcodeOf w = 0#6) :
    packR (rsOf w) (rtOf w) (rdOf w) (shamtOf w) (functOf w) = w := by
  apply BitVec.eq_of_getLsbD_eq; intro i hi
  simp only [packR, rsOf, rtOf, rdOf, shamtOf, functOf, BitVec.getLsbD_append, BitVec.getLsbD_extractLsb']
  by_cases h1 : i < 6
  · simp [h1]
  by_cases h2 : i < 11
  · simp [h1, show i - 6 < 5 by omega, show 6 + (i - 6) = i by omega]
  by_cases h3 : i < 16
  · simp [h1, show ¬ i - 6 < 5 by omega, show i - 6 - 5 < 5 by omega, show 11 + (i - 6 - 5) = i by omega]
  by_cases h4 : i < 21
  · simp [h1, show ¬ i - 6 < 5 by omega, show ¬ i - 6 - 5 < 5 by omega, show i - 6 - 5 - 5 < 5 by omega,
      show 16 + (i - 6 - 5 - 5) = i by omega]
  by_cases h5 : i < 26
  · simp [h1, show ¬ i - 6 < 5 by omega, show ¬ i - 6 - 5 < 5 by omega, show ¬ i - 6 - 5 - 5 < 5 by omega,
      show i - 6 - 5 - 5 - 5 < 5 by omega, show 21 + (i - 6 - 5 - 5 - 5) = i by omega]
  · have hb := congrArg (fun v => v.getLsbD (i - 26)) h
    simp only [opcodeOf, BitVec.getLsbD_extractLsb', show i - 26 < 6 by omega, show 26 + (i - 26) = i by omega] at hb
    simp at hb
    simp [h1, show ¬ i - 6 < 5 by omega, show ¬ i - 6 - 5 < 5 by omega, show ¬ i - 6 - 5 - 5 < 5 by omega,
      show ¬ i - 6 - 5 - 5 - 5 < 5 by omega, hb]

/-! ### Extraction and the table's masks (R54, R59) -/

theorem getLsbD_maskR (i : Nat) : (0xFC00003F : Word).getLsbD i = decide (i < 6 ∨ 26 ≤ i ∧ i < 32) := by
  by_cases h : i < 32
  · interval_cases i <;> decide
  · rw [BitVec.getLsbD_of_ge _ _ (by omega)]; symm; simp; omega

theorem getLsbD_maskI (i : Nat) : (0xFC000000 : Word).getLsbD i = decide (26 ≤ i ∧ i < 32) := by
  by_cases h : i < 32
  · interval_cases i <;> decide
  · rw [BitVec.getLsbD_of_ge _ _ (by omega)]; symm; simp; omega

/-- A word has an R-type row's pattern exactly when its opcode is 0 and its function code is the row's. -/
theorem and_maskR_eq_iff (w : Word) (f : Six) :
    w &&& 0xFC00003F = f.zeroExtend 32 ↔ opcodeOf w = 0#6 ∧ functOf w = f := by
  constructor
  · intro h
    constructor
    · apply BitVec.eq_of_getLsbD_eq; intro i hi
      have := congrArg (fun v => v.getLsbD (26 + i)) h
      simp only [BitVec.getLsbD_and, getLsbD_maskR] at this
      simp only [BitVec.getLsbD_setWidth, BitVec.getLsbD_of_ge f (26 + i) (by omega)] at this
      simpa [opcodeOf, hi, show 26 + i < 32 by omega] using this
    · apply BitVec.eq_of_getLsbD_eq; intro i hi
      have := congrArg (fun v => v.getLsbD i) h
      simp only [BitVec.getLsbD_and, getLsbD_maskR] at this
      simpa [functOf, hi, show i < 32 by omega] using this
  · rintro ⟨ho, rfl⟩
    apply BitVec.eq_of_getLsbD_eq; intro i hi
    simp only [BitVec.getLsbD_and, getLsbD_maskR]
    by_cases h1 : i < 6
    · simp [functOf, h1, hi]
    by_cases h2 : i < 26
    · simp [functOf, h1, show ¬ 26 ≤ i by omega]
    · have hb := congrArg (fun v => v.getLsbD (i - 26)) ho
      simp only [opcodeOf, BitVec.getLsbD_extractLsb', show i - 26 < 6 by omega, show 26 + (i - 26) = i by omega] at hb
      simp at hb
      simp [functOf, h1, hb]

/-- A word has an I-type row's pattern exactly when its opcode is the row's. -/
theorem and_maskI_eq_iff (w : Word) (o : Six) :
    w &&& 0xFC000000 = packI o 0 0 0 ↔ opcodeOf w = o := by
  constructor
  · intro h
    have := congrArg opcodeOf h
    rw [opcodeOf_packI] at this
    rw [← this]
    apply BitVec.eq_of_getLsbD_eq; intro i hi
    simp only [opcodeOf, BitVec.getLsbD_extractLsb', BitVec.getLsbD_and, getLsbD_maskI]
    simp [hi, show 26 + i < 32 by omega]
  · rintro rfl
    apply BitVec.eq_of_getLsbD_eq; intro i hi
    simp only [BitVec.getLsbD_and, getLsbD_maskI, packI, opcodeOf, BitVec.getLsbD_append, BitVec.getLsbD_extractLsb']
    by_cases h1 : i < 16
    · simp [h1, show ¬ 26 ≤ i by omega]
    by_cases h2 : i < 21
    · simp [h1, show ¬ 26 ≤ i by omega, show i - 16 < 5 by omega]
    by_cases h3 : i < 26
    · simp [h1, show ¬ 26 ≤ i by omega, show ¬ i - 16 < 5 by omega, show i - 16 - 5 < 5 by omega]
    · simp [h1, hi, show 26 ≤ i by omega, show ¬ i - 16 < 5 by omega, show ¬ i - 16 - 5 < 5 by omega, show i - 16 - 5 - 5 < 6 by omega,
        show 26 + (i - 16 - 5 - 5) = i by omega]

/-! ### The decoder on fields -/

theorem decodeWord_of_opcode_zero {w : Word} (h : opcodeOf w = 0#6) :
    decodeWord w = selectR (rsOf w) (rtOf w) (rdOf w) (shamtOf w) (functOf w) := by
  simp [decodeWord, fieldsOf, selectInstr, h]

theorem decodeWord_of_opcode_ne_zero {w : Word} (h : opcodeOf w ≠ 0#6) :
    decodeWord w = selectI (opcodeOf w) (rsOf w) (rtOf w) (immOf w) := by
  simp [decodeWord, fieldsOf, selectInstr, h]

theorem decodeWord_packR (rs rt rd : RegIdx) (shamt : Shamt) (funct : Six) :
    decodeWord (packR rs rt rd shamt funct) = selectR rs rt rd shamt funct := by
  rw [decodeWord_of_opcode_zero (opcodeOf_packR ..)]; simp

theorem decodeWord_packI {opcode : Six} (h : opcode ≠ 0#6) (rs rt : RegIdx) (imm : Half) :
    decodeWord (packI opcode rs rt imm) = selectI opcode rs rt imm := by
  rw [decodeWord_of_opcode_ne_zero (by simpa using h)]; simp

/-! ### Bytes -/

/-- The decoder on the four bytes of a word is the decoder on the word. -/
theorem decode_bytesOfWord (w : Word) (rest : List Byte) :
    decode (bytesOfWord w ++ rest) =
      match decodeWord w with
      | some i => .ok (i, rest)
      | none => .error (.invalidOperation w) := by
  cases h : decodeWord w <;>
    simp only [bytesOfWord, List.cons_append, List.nil_append, decode, Machine.wordOfBytes_byteOfWord, h]

theorem decodeTableWord_32 (w : Word) : decodeTableWord 32 w.toNat = decodeWord w := by
  have hw : BitVec.ofNat 32 (w.toNat % 2 ^ 32) = w := by
    rw [Nat.mod_eq_of_lt w.isLt]; simp
  have := decode_bytesOfWord w []
  rw [List.append_nil] at this
  unfold decodeTableWord
  rw [hw, this]
  cases decodeWord w <;> rfl

end Sys2Proof
end

