-- ==== Sys2Proof/Laws/Registers.lean ====
section
/-! SUPPORT. Reading and writing the general registers (10_state.md R12). -/

namespace Sys2Proof.Machine

@[simp] theorem State.reg_zero (s : State) : s.reg 0#5 = 0#32 := by simp [State.reg]

@[simp] theorem State.setReg_zero (s : State) (v : Word) : s.setReg 0#5 v = s := by simp [State.setReg]

theorem regIdx_pos {i : RegIdx} (h : i ≠ 0#5) : 0 < i.toNat := by
  rcases Nat.eq_zero_or_pos i.toNat with hn | hn
  · exact absurd (BitVec.eq_of_toNat_eq (by simpa using hn)) h
  · exact hn

/-- A read after a write: the value where it was written, the old value everywhere else. -/
theorem State.reg_setReg (s : State) (i j : RegIdx) (v : Word) :
    (s.setReg i v).reg j = if j = i ∧ i ≠ 0#5 then v else s.reg j := by
  by_cases hi : i = 0#5
  · subst hi; simp
  by_cases hj : j = 0#5
  · subst hj; simp [Ne.symm hi]
  have hi' := regIdx_pos hi
  have hj' := regIdx_pos hj
  by_cases hij : j = i
  · subst hij; simp [State.reg, State.setReg, hi]
  · have hne : i.toNat - 1 ≠ j.toNat - 1 := fun h => hij (BitVec.eq_of_toNat_eq (by omega))
    simp [State.reg, State.setReg, hi, hj, hij, hne]

theorem State.reg_setReg_eq_written (s : State) (rd : RegIdx) (v : Word) (i : RegIdx) :
    (s.setReg rd v).reg i = written s rd v i := s.reg_setReg rd i v

/-- Registers read alike make the same file. -/
theorem gpr_ext {s t : State} (h : ∀ i, t.reg i = s.reg i) : t.gpr = s.gpr := by
  apply Vector.ext
  intro k hk
  have hk' : (BitVec.ofNat 5 (k + 1)).toNat = k + 1 := by
    rw [BitVec.toNat_ofNat]; omega
  have hi : BitVec.ofNat 5 (k + 1) ≠ 0#5 := by
    intro h0
    have := congrArg BitVec.toNat h0
    rw [hk'] at this
    simp at this
  have := h (BitVec.ofNat 5 (k + 1))
  simpa [State.reg, hi, hk'] using this

end Sys2Proof.Machine
end

