-- ==== Sys2Proof/Laws/Outcomes.lean ====
section
/-! SUPPORT. For each shared operation, once, everything it can do. A proof cites these and never unfolds the
operation. -/

namespace Sys2Proof.Machine

/-! ### The ways an instruction ends -/

theorem complete_eq_next {c : Word} {s t : State} : complete c s = .next t ↔ t = s.setResult c := by
  unfold complete; constructor
  · intro h; cases h; rfl
  · rintro rfl; rfl

/-- To complete with `c` from a state `u` reached from `s` without touching memory is to leave what `u` holds. -/
theorem completes_complete {s u : State} {c : Word} {a : After} (hc : a.code = c) (hr : ∀ i, u.reg i = a.regs i)
    (hh : u.hi = a.hi) (hl : u.lo = a.lo) (hp : u.pc = a.pc) (hd : u.draws = a.draws) (hm : u.mem = s.mem)
    (hk : u.memCapacity = s.memCapacity) : Completes (complete c u) s a :=
  ⟨u.setResult c, rfl, by simp [hc], by simpa using hr, by simpa using hh, by simpa using hl, by simpa using hp,
    by simpa using hd, by simpa using hm, fun addr => by simp [State.loadByte, State.inRange, hm, hk], by simpa using hk⟩

/-- A trap changes nothing but the result (60_exceptions.md R172, R179). -/
theorem completes_raiseTrap (s : State) : Completes (raiseTrap s) s { After.same s with code := 1#32 } :=
  completes_complete rfl (fun _ => rfl) rfl rfl rfl rfl rfl rfl

/-- A write-back changes one register at most, and no other part of the state but the result. -/
theorem completes_writeBack (rd : RegIdx) (v : Word) (s : State) :
    Completes (writeBack rd v s) s { After.same s with regs := written s rd v } :=
  completes_complete rfl (s.reg_setReg_eq_written rd v) (by simp [After.same]) (by simp [After.same])
    (by simp [After.same]) (by simp [After.same]) (by simp) (by simp)

theorem completes_complete_same (s : State) (c : Word) : Completes (complete c s) s { After.same s with code := c } :=
  completes_complete rfl (fun _ => rfl) rfl rfl rfl rfl rfl rfl

theorem trapIf_eq (c : Bool) (s : State) : trapIf c s = complete (if c then 1#32 else 0#32) s := by
  cases c <;> rfl

theorem fitsSigned_iff (t : Int) : fitsSigned t = true ↔ -2147483648 ≤ t ∧ t ≤ 2147483647 := by
  simp [fitsSigned]

theorem trappingWrite_eq (rd : RegIdx) (t : Int) (s : State) :
    trappingWrite rd t s = if -2147483648 ≤ t ∧ t ≤ 2147483647 then writeBack rd (BitVec.ofInt 32 t) s else raiseTrap s := by
  simp [trappingWrite, fitsSigned_iff]

theorem completes_writeHiLo (h l : Word) (s : State) :
    Completes (writeHiLo h l s) s { After.same s with hi := h, lo := l } :=
  completes_complete rfl (fun _ => rfl) rfl rfl rfl rfl rfl rfl

theorem completes_divideByZero (signed : Bool) (a : Word) (s : State) :
    Completes (divideByZero signed a s) s
      { After.same s with hi := Config.div0Hi signed a s.draws, lo := Config.div0Lo signed a s.draws,
                          draws := s.draws + 1 } :=
  completes_complete rfl (fun _ => rfl) rfl rfl rfl rfl rfl rfl

/-! ### Comparisons -/

theorem lessSigned_iff (a b : Word) : lessSigned a b = true ↔ a.toInt < b.toInt := by simp [lessSigned]

theorem lessUnsigned_iff (a b : Word) : lessUnsigned a b = true ↔ a.toNat < b.toNat := by simp [lessUnsigned]

/-! ### Access and the step -/

theorem inRange_iff (s : State) (addr : Word) (n : Nat) : s.inRange addr n = true ↔ addr.toNat + n ≤ s.memCapacity := by
  simp [State.inRange]

theorem fetch_eq (s : State) :
    fetch s = if s.pc.toNat + 4 ≤ s.memCapacity then .ok (s.mem.readWord s.pc.toNat)
      else .error (.addressOutOfRange s.pc 4) := by
  simp [fetch, State.loadWord, State.inRange]

/-- Everything one step can do: the two errors of R72 and R73, or one instruction in the advanced state. -/
theorem step_eq (s : State) :
    step s = if s.pc.toNat + 4 ≤ s.memCapacity then
        match decodeWord (s.mem.readWord s.pc.toNat) with
        | none => .fault (.invalidOperation (s.mem.readWord s.pc.toNat))
        | some i => exec i s.advance
      else .fault (.addressOutOfRange s.pc 4) := by
  unfold step
  rw [fetch_eq]
  split_ifs <;> rfl

/-- A step that ends in a next state ran one decoded instruction. -/
theorem step_eq_next {s t : State} (h : step s = .next t) :
    ∃ i, s.pc.toNat + 4 ≤ s.memCapacity ∧ decodeWord (s.mem.readWord s.pc.toNat) = some i ∧ exec i s.advance = .next t := by
  rw [step_eq] at h
  split_ifs at h with hr
  split at h
  · cases h
  · exact ⟨_, hr, ‹_›, h⟩

end Sys2Proof.Machine
end

