-- ==== Sys2Proof/Laws/HostInterface.lean ====
section
/-! SUPPORT. The memory accessors with their range condition as a proposition, and everything the two reply functions
of the host interface can do. -/

namespace Sys2Proof.Machine

theorem loadByte_eq (s : State) (addr : Word) :
    s.loadByte addr = if addr.toNat + 1 ≤ s.memCapacity then .ok (s.mem.read addr.toNat)
      else .error (.addressOutOfRange addr 1) := by
  simp only [State.loadByte, inRange_iff]

theorem loadWord_eq (s : State) (addr : Word) :
    s.loadWord addr = if addr.toNat + 4 ≤ s.memCapacity then .ok (s.mem.readWord addr.toNat)
      else .error (.addressOutOfRange addr 4) := by
  simp only [State.loadWord, inRange_iff]

theorem storeByte_eq (s : State) (addr : Word) (v : Byte) :
    s.storeByte addr v = if addr.toNat + 1 ≤ s.memCapacity then .ok { s with mem := s.mem.write addr.toNat v }
      else .error (.addressOutOfRange addr 1) := by
  simp only [State.storeByte, inRange_iff]

theorem storeWord_eq (s : State) (addr v : Word) :
    s.storeWord addr v = if addr.toNat + 4 ≤ s.memCapacity then .ok { s with mem := s.mem.writeWord addr.toNat v }
      else .error (.addressOutOfRange addr 4) := by
  simp only [State.storeWord, inRange_iff]

@[simp] theorem replyStored_ok (s t : State) : replyStored s (.ok t) = (.done, t) := rfl
@[simp] theorem replyStored_error (s : State) (e : Fault) : replyStored s (.error e) = (.error e, s) := rfl
@[simp] theorem replyStepped_next (s t : State) : replyStepped s (.next t) = (.code (t.result.getD 0#32), t) := rfl
@[simp] theorem replyStepped_fault (s : State) (e : Fault) : replyStepped s (.fault e) = (.error e, s) := rfl

@[simp] theorem performAll_nil (s : State) : s.performAll [] = ([], s) := rfl
@[simp] theorem performAll_cons (s : State) (op : HostOp) (ops : List HostOp) :
    s.performAll (op :: ops) =
      ((s.perform op).1 :: ((s.perform op).2.performAll ops).1, ((s.perform op).2.performAll ops).2) := rfl

end Sys2Proof.Machine
end

