-- ==== Sys2Proof/Laws/PerInstr.lean ====
section
/-! SUPPORT. Statements made for every instruction: one lemma per constructor of `Instr`. -/

namespace Sys2Proof.Laws.EncodedPattern

/-- The encoder's word of an instruction has its opcode-table row's pattern under the row's mask (30_encoding.md R59,
R65). -/
def Statement (i : Instr) : Prop := encode i &&& Machine.tableMask i = Machine.tableMatch i

theorem of_packR (rs rt rd : RegIdx) (shamt : Shamt) (funct : Six) :
    packR rs rt rd shamt funct &&& 0xFC00003F = funct.zeroExtend 32 :=
  (and_maskR_eq_iff _ _).2 ⟨opcodeOf_packR .., functOf_packR ..⟩

theorem of_packI (opcode : Six) (rs rt : RegIdx) (imm : Half) :
    packI opcode rs rt imm &&& 0xFC000000 = packI opcode 0 0 0 :=
  (and_maskI_eq_iff _ _).2 (opcodeOf_packI ..)

theorem sll (rd rt : RegIdx) (shamt : Shamt) : Statement (.sll rd rt shamt) := of_packR ..
theorem srl (rd rt : RegIdx) (shamt : Shamt) : Statement (.srl rd rt shamt) := of_packR ..
theorem sra (rd rt : RegIdx) (shamt : Shamt) : Statement (.sra rd rt shamt) := of_packR ..
theorem sllv (rd rt rs : RegIdx) : Statement (.sllv rd rt rs) := of_packR ..
theorem srlv (rd rt rs : RegIdx) : Statement (.srlv rd rt rs) := of_packR ..
theorem srav (rd rt rs : RegIdx) : Statement (.srav rd rt rs) := of_packR ..
theorem jr (rs : RegIdx) : Statement (.jr rs) := of_packR ..
theorem jalr (rs : RegIdx) : Statement (.jalr rs) := of_packR ..
theorem movz (rd rs rt : RegIdx) : Statement (.movz rd rs rt) := of_packR ..
theorem movn (rd rs rt : RegIdx) : Statement (.movn rd rs rt) := of_packR ..
theorem brk (rs rt rd : RegIdx) (shamt : Shamt) : Statement (.brk rs rt rd shamt) := of_packR ..
theorem mfhi (rd : RegIdx) : Statement (.mfhi rd) := of_packR ..
theorem mthi (rs : RegIdx) : Statement (.mthi rs) := of_packR ..
theorem mflo (rd : RegIdx) : Statement (.mflo rd) := of_packR ..
theorem mtlo (rs : RegIdx) : Statement (.mtlo rs) := of_packR ..
theorem mult (rs rt : RegIdx) : Statement (.mult rs rt) := of_packR ..
theorem multu (rs rt : RegIdx) : Statement (.multu rs rt) := of_packR ..
theorem div (rs rt : RegIdx) : Statement (.div rs rt) := of_packR ..
theorem divu (rs rt : RegIdx) : Statement (.divu rs rt) := of_packR ..
theorem add (rd rs rt : RegIdx) : Statement (.add rd rs rt) := of_packR ..
theorem addu (rd rs rt : RegIdx) : Statement (.addu rd rs rt) := of_packR ..
theorem sub (rd rs rt : RegIdx) : Statement (.sub rd rs rt) := of_packR ..
theorem subu (rd rs rt : RegIdx) : Statement (.subu rd rs rt) := of_packR ..
theorem and (rd rs rt : RegIdx) : Statement (.and rd rs rt) := of_packR ..
theorem or (rd rs rt : RegIdx) : Statement (.or rd rs rt) := of_packR ..
theorem xor (rd rs rt : RegIdx) : Statement (.xor rd rs rt) := of_packR ..
theorem nor (rd rs rt : RegIdx) : Statement (.nor rd rs rt) := of_packR ..
theorem slt (rd rs rt : RegIdx) : Statement (.slt rd rs rt) := of_packR ..
theorem sltu (rd rs rt : RegIdx) : Statement (.sltu rd rs rt) := of_packR ..
theorem tge (rs rt : RegIdx) : Statement (.tge rs rt) := of_packR ..
theorem tgeu (rs rt : RegIdx) : Statement (.tgeu rs rt) := of_packR ..
theorem tlt (rs rt : RegIdx) : Statement (.tlt rs rt) := of_packR ..
theorem tltu (rs rt : RegIdx) : Statement (.tltu rs rt) := of_packR ..
theorem teq (rs rt : RegIdx) : Statement (.teq rs rt) := of_packR ..
theorem tne (rs rt : RegIdx) : Statement (.tne rs rt) := of_packR ..
theorem addi (rt rs : RegIdx) (imm : Half) : Statement (.addi rt rs imm) := of_packI ..
theorem addiu (rt rs : RegIdx) (imm : Half) : Statement (.addiu rt rs imm) := of_packI ..
theorem slti (rt rs : RegIdx) (imm : Half) : Statement (.slti rt rs imm) := of_packI ..
theorem sltiu (rt rs : RegIdx) (imm : Half) : Statement (.sltiu rt rs imm) := of_packI ..
theorem andi (rt rs : RegIdx) (imm : Half) : Statement (.andi rt rs imm) := of_packI ..
theorem ori (rt rs : RegIdx) (imm : Half) : Statement (.ori rt rs imm) := of_packI ..
theorem xori (rt rs : RegIdx) (imm : Half) : Statement (.xori rt rs imm) := of_packI ..
theorem lui (rt rs : RegIdx) (imm : Half) : Statement (.lui rt rs imm) := of_packI ..

end Sys2Proof.Laws.EncodedPattern
end

