-- ==== Sys2Proof/Tests/Slice0.lean ====
section
/-! SUPPORT. The model's own tests. Expected results come from the spec: the encodings of 30_encoding.md and the vectors
of 95_test_vectors.md (the vector's name is in the theorem's). The witnesses at the end meet the hypotheses of the
statements, one or more each. -/

namespace Sys2Proof.Tests

open Sys2Proof Sys2Proof.Machine

/-! ### Well-formedness: an ill-formed term for each check -/

theorem test_wf_funct_12 : (Fields.r 0 0 0 0 12).wellFormed = false := by decide
theorem test_wf_funct_53 : (Fields.r 0 0 0 0 53).wellFormed = false := by decide
theorem test_wf_funct_54 : (Fields.r 0 0 0 0 54).wellFormed = true := by decide
theorem test_wf_opcode_7 : (Fields.i 7 0 0 0).wellFormed = false := by decide
theorem test_wf_opcode_8 : (Fields.i 8 0 0 0).wellFormed = true := by decide
theorem test_wf_opcode_16 : (Fields.i 16 0 0 0).wellFormed = false := by decide
theorem test_wf_program_too_long : constructionWellFormed 7 [0, 0] = false := by decide
theorem test_wf_program_fits : constructionWellFormed 8 [0, 0] = true := by decide
theorem test_wf_capacity_too_large : constructionWellFormed 4294967297 [] = false := by decide

/-! ### Decoding: every constructor from a word written bit by bit from its row of 30_encoding.md R58 and R57; ignored
fields hold ones here -/

theorem test_decode_sll : decodeWord 0b000000_11111_01010_11101_00110_000000#32 = some (.sll 29 10 6) := by decide
theorem test_decode_srl : decodeWord 0b000000_11111_01010_11101_00110_000010#32 = some (.srl 29 10 6) := by decide
theorem test_decode_sra : decodeWord 0b000000_11111_01010_11101_00110_000011#32 = some (.sra 29 10 6) := by decide
theorem test_decode_sllv : decodeWord 0b000000_10001_01010_11101_11111_000100#32 = some (.sllv 29 10 17) := by decide
theorem test_decode_srlv : decodeWord 0b000000_10001_01010_11101_11111_000110#32 = some (.srlv 29 10 17) := by decide
theorem test_decode_srav : decodeWord 0b000000_10001_01010_11101_11111_000111#32 = some (.srav 29 10 17) := by decide
theorem test_decode_jr : decodeWord 0b000000_10001_11111_11111_11111_001000#32 = some (.jr 17) := by decide
theorem test_decode_jalr : decodeWord 0b000000_10001_11111_11111_11111_001001#32 = some (.jalr 17) := by decide
theorem test_decode_movz : decodeWord 0b000000_10001_01010_11101_11111_001010#32 = some (.movz 29 17 10) := by decide
theorem test_decode_movn : decodeWord 0b000000_10001_01010_11101_11111_001011#32 = some (.movn 29 17 10) := by decide
theorem test_decode_brk : decodeWord 0b000000_10001_01010_11101_00110_001101#32 = some (.brk 17 10 29 6) := by decide
theorem test_decode_mfhi : decodeWord 0b000000_11111_11111_11101_11111_010000#32 = some (.mfhi 29) := by decide
theorem test_decode_mthi : decodeWord 0b000000_10001_11111_11111_11111_010001#32 = some (.mthi 17) := by decide
theorem test_decode_mflo : decodeWord 0b000000_11111_11111_11101_11111_010010#32 = some (.mflo 29) := by decide
theorem test_decode_mtlo : decodeWord 0b000000_10001_11111_11111_11111_010011#32 = some (.mtlo 17) := by decide
theorem test_decode_mult : decodeWord 0b000000_10001_01010_11111_11111_011000#32 = some (.mult 17 10) := by decide
theorem test_decode_multu : decodeWord 0b000000_10001_01010_11111_11111_011001#32 = some (.multu 17 10) := by decide
theorem test_decode_div : decodeWord 0b000000_10001_01010_11111_11111_011010#32 = some (.div 17 10) := by decide
theorem test_decode_divu : decodeWord 0b000000_10001_01010_11111_11111_011011#32 = some (.divu 17 10) := by decide
theorem test_decode_add : decodeWord 0b000000_10001_01010_11101_11111_100000#32 = some (.add 29 17 10) := by decide
theorem test_decode_addu : decodeWord 0b000000_10001_01010_11101_11111_100001#32 = some (.addu 29 17 10) := by decide
theorem test_decode_sub : decodeWord 0b000000_10001_01010_11101_11111_100010#32 = some (.sub 29 17 10) := by decide
theorem test_decode_subu : decodeWord 0b000000_10001_01010_11101_11111_100011#32 = some (.subu 29 17 10) := by decide
theorem test_decode_and : decodeWord 0b000000_10001_01010_11101_11111_100100#32 = some (.and 29 17 10) := by decide
theorem test_decode_or : decodeWord 0b000000_10001_01010_11101_11111_100101#32 = some (.or 29 17 10) := by decide
theorem test_decode_xor : decodeWord 0b000000_10001_01010_11101_11111_100110#32 = some (.xor 29 17 10) := by decide
theorem test_decode_nor : decodeWord 0b000000_10001_01010_11101_11111_100111#32 = some (.nor 29 17 10) := by decide
theorem test_decode_slt : decodeWord 0b000000_10001_01010_11101_11111_101010#32 = some (.slt 29 17 10) := by decide
theorem test_decode_sltu : decodeWord 0b000000_10001_01010_11101_11111_101011#32 = some (.sltu 29 17 10) := by decide
theorem test_decode_tge : decodeWord 0b000000_10001_01010_11111_11111_110000#32 = some (.tge 17 10) := by decide
theorem test_decode_tgeu : decodeWord 0b000000_10001_01010_11111_11111_110001#32 = some (.tgeu 17 10) := by decide
theorem test_decode_tlt : decodeWord 0b000000_10001_01010_11111_11111_110010#32 = some (.tlt 17 10) := by decide
theorem test_decode_tltu : decodeWord 0b000000_10001_01010_11111_11111_110011#32 = some (.tltu 17 10) := by decide
theorem test_decode_teq : decodeWord 0b000000_10001_01010_11111_11111_110100#32 = some (.teq 17 10) := by decide
theorem test_decode_tne : decodeWord 0b000000_10001_01010_11111_11111_110110#32 = some (.tne 17 10) := by decide
theorem test_decode_addi : decodeWord 0b001000_10001_01010_1000110000111010#32 = some (.addi 10 17 35898) := by decide
theorem test_decode_addiu : decodeWord 0b001001_10001_01010_1000110000111010#32 = some (.addiu 10 17 35898) := by decide
theorem test_decode_slti : decodeWord 0b001010_10001_01010_1000110000111010#32 = some (.slti 10 17 35898) := by decide
theorem test_decode_sltiu : decodeWord 0b001011_10001_01010_1000110000111010#32 = some (.sltiu 10 17 35898) := by decide
theorem test_decode_andi : decodeWord 0b001100_10001_01010_1000110000111010#32 = some (.andi 10 17 35898) := by decide
theorem test_decode_ori : decodeWord 0b001101_10001_01010_1000110000111010#32 = some (.ori 10 17 35898) := by decide
theorem test_decode_xori : decodeWord 0b001110_10001_01010_1000110000111010#32 = some (.xori 10 17 35898) := by decide
theorem test_decode_lui : decodeWord 0b001111_10001_01010_1000110000111010#32 = some (.lui 10 17 35898) := by decide

/-! E8, E9, E10 and the gaps of R61 -/

theorem test_decode_e8 : decodeWord 0xFFFFFFFF#32 = none := by decide
theorem test_decode_e9 : decodeWord 0x0000000C#32 = none := by decide
theorem test_decode_e10 : decodeWord 0x8C220004#32 = none := by decide
theorem test_decode_opcode_1 : decodeWord 0x04000000#32 = none := by decide
theorem test_decode_opcode_16 : decodeWord 0x40000000#32 = none := by decide

/-! Bytes: the lowest address holds the least significant byte (R50 of 30_encoding.md, R32 of 20_memory.md) -/

theorem test_decode_bytes : decode [0x21, 0x18, 0x22, 0x00, 0xFF] = .ok (.addu 3 1 2, [0xFF]) := by decide
theorem test_decode_bytes_invalid : decode [0x0C, 0, 0, 0] = .error (.invalidOperation 12) := by decide
theorem test_decode_bytes_truncated : decode [0x21, 0x18, 0x22] = .error .truncated := by decide
theorem test_decode_table_word : decodeTableWord 32 0x00221821 = some (.addu 3 1 2) := by decide

/-! ### One step of every instruction (95_test_vectors.md) -/

/-- The reset state with `word` at the pc and the given general registers. -/
def placed (word : Nat) (regs : List (RegIdx × Word)) (s : State := State.reset) : State :=
  (regs.foldl (fun t p => t.setReg p.1 p.2) s).withFetchWord 32 word

/-- What `f` sees of the state after one step, `none` after an error. -/
def after {α : Type} (s : State) (f : State → α) : Option α :=
  match step s with
  | .next t => some (f t)
  | .fault _ => none
  | .refused _ => none

/-- The error of one step, if it is one. -/
def failure (s : State) : Option Fault :=
  match step s with
  | .next _ => none
  | .fault e => some e
  | .refused _ => none

theorem test_sll_v1 :
    after (placed 0x00011040 [(1, 0x80000001), (2, 0xDEADBEEF)]) (fun t => (t.result, t.pc, t.reg 2)) =
      some (some 0x0, 0x4, 0x2) := by decide
theorem test_sll_v4 :
    after (placed 0x00010900 [(1, 0x12345678)]) (fun t => (t.result, t.pc, t.reg 1)) =
      some (some 0x0, 0x4, 0x23456780) := by decide
theorem test_srl_v9 :
    after (placed 0x00011042 [(1, 0x80000000)]) (fun t => (t.result, t.pc, t.reg 2)) =
      some (some 0x0, 0x4, 0x40000000) := by decide
theorem test_srl_v7 :
    after (placed 0x000117C2 [(1, 0x80000000)]) (fun t => (t.result, t.pc, t.reg 2)) =
      some (some 0x0, 0x4, 0x1) := by decide
theorem test_sra_v11 :
    after (placed 0x00011043 [(1, 0x80000000)]) (fun t => (t.result, t.pc, t.reg 2)) =
      some (some 0x0, 0x4, 0xC0000000) := by decide
theorem test_sra_v12 :
    after (placed 0x00011103 [(1, 0x7FFFFFFF)]) (fun t => (t.result, t.pc, t.reg 2)) =
      some (some 0x0, 0x4, 0x7FFFFFF) := by decide
theorem test_sllv_v15 :
    after (placed 0x00411804 [(1, 0x1), (2, 0x20), (3, 0xDEADBEEF)]) (fun t => (t.result, t.pc, t.reg 3)) =
      some (some 0x0, 0x4, 0x1) := by decide
theorem test_sllv_v17 :
    after (placed 0x00211804 [(1, 0x3)]) (fun t => (t.result, t.pc, t.reg 3)) =
      some (some 0x0, 0x4, 0x18) := by decide
theorem test_srlv_v18 :
    after (placed 0x00411806 [(1, 0x80000000), (2, 0x3F)]) (fun t => (t.result, t.pc, t.reg 3)) =
      some (some 0x0, 0x4, 0x1) := by decide
theorem test_srlv_v19 :
    after (placed 0x00411806 [(1, 0xFFFFFFFF), (2, 0x40), (3, 0xDEADBEEF)]) (fun t => (t.result, t.pc, t.reg 3)) =
      some (some 0x0, 0x4, 0xFFFFFFFF) := by decide
theorem test_srav_v20 :
    after (placed 0x00411807 [(1, 0x80000000), (2, 0x3F)]) (fun t => (t.result, t.pc, t.reg 3)) =
      some (some 0x0, 0x4, 0xFFFFFFFF) := by decide
theorem test_srav_v22 :
    after (placed 0x00410807 [(1, 0xFFFFFF00), (2, 0x4)]) (fun t => (t.result, t.pc, t.reg 1)) =
      some (some 0x0, 0x4, 0xFFFFFFF0) := by decide
theorem test_jr_v27 :
    after (placed 0x00200008 [(1, 0x6)]) (fun t => (t.result, t.pc, t.reg 1)) =
      some (some 0x0, 0x6, 0x6) := by decide
theorem test_jr_v28 :
    after (placed 0x00200008 [(1, 0xFFFFFFF0)]) (fun t => (t.result, t.pc, t.reg 1)) =
      some (some 0x0, 0xFFFFFFF0, 0xFFFFFFF0) := by decide
theorem test_jalr_v31 :
    after (placed 0x00200009 [(1, 0x20)] { State.reset with pc := 0x8 }) (fun t => (t.result, t.pc, t.reg 31)) =
      some (some 0x0, 0x20, 0xC) := by decide
theorem test_jalr_v33 :
    after (placed 0x03E00009 [(31, 0x20)]) (fun t => (t.result, t.pc, t.reg 31)) =
      some (some 0x0, 0x4, 0x4) := by decide
theorem test_movz_v37 :
    after (placed 0x0022180A [(1, 0xAAAAAAAA), (2, 0x80000000), (3, 0x55555555)])
      (fun t => (t.result, t.pc, t.reg 3)) =
      some (some 0x0, 0x4, 0x55555555) := by decide
theorem test_movz_v39 :
    after (placed 0x0041080A [(1, 0x0), (2, 0x7)]) (fun t => (t.result, t.pc, t.reg 1)) =
      some (some 0x0, 0x4, 0x7) := by decide
theorem test_movn_v41 :
    after (placed 0x0022180B [(1, 0xAAAAAAAA), (2, 0x80000000), (3, 0x55555555)])
      (fun t => (t.result, t.pc, t.reg 3)) =
      some (some 0x0, 0x4, 0xAAAAAAAA) := by decide
theorem test_movn_v44 :
    after (placed 0x0002180B [(2, 0x1), (3, 0x55555555)]) (fun t => (t.result, t.pc, t.reg 3)) =
      some (some 0x0, 0x4, 0x0) := by decide
theorem test_brk_v51 :
    after (placed 0x0200048D [(16, 0xFFFFFFFF)]) (fun t => (t.result, t.pc, t.reg 16)) =
      some (some 0x100012, 0x4, 0xFFFFFFFF) := by decide
theorem test_brk_v47 :
    after (placed 0x0000000D []) (fun t => (t.result, t.pc)) =
      some (some 0x0, 0x4) := by decide
theorem test_mfhi_v52 :
    after (placed 0x00001810 [(3, 0xDEADBEEF)] { State.reset with hi := 0xF, lo := 0xFFFFFFE0 })
      (fun t => (t.result, t.pc, t.reg 3)) =
      some (some 0x0, 0x4, 0xF) := by decide
theorem test_mfhi_v54 :
    after (placed 0x00000010 [] { State.reset with hi := 0xF }) (fun t => (t.result, t.pc, t.reg 0)) =
      some (some 0x0, 0x4, 0x0) := by decide
theorem test_mthi_v56 :
    after (placed 0x00200011 [(1, 0x12345678)] { State.reset with lo := 0xFFFFFFE0 })
      (fun t => (t.result, t.pc, t.hi, t.lo)) =
      some (some 0x0, 0x4, 0x12345678, 0xFFFFFFE0) := by decide
theorem test_mthi_v58 :
    after (placed 0x00000011 [] { State.reset with hi := 0xF }) (fun t => (t.result, t.pc, t.hi)) =
      some (some 0x0, 0x4, 0x0) := by decide
theorem test_mflo_v53 :
    after (placed 0x00002012 [] { State.reset with hi := 0xF, lo := 0xFFFFFFE0 })
      (fun t => (t.result, t.pc, t.reg 4)) =
      some (some 0x0, 0x4, 0xFFFFFFE0) := by decide
theorem test_mtlo_v57 :
    after (placed 0x00200013 [(1, 0x9ABCDEF0)] { State.reset with hi := 0xF })
      (fun t => (t.result, t.pc, t.lo, t.hi)) =
      some (some 0x0, 0x4, 0x9ABCDEF0, 0xF) := by decide
theorem test_mult_v64 :
    after (placed 0x00220018 [(1, 0x80000000), (2, 0x7FFFFFFF)]) (fun t => (t.result, t.pc, t.hi, t.lo)) =
      some (some 0x0, 0x4, 0xC0000000, 0x80000000) := by decide
theorem test_mult_v63 :
    after (placed 0x00220018 [(1, 0x80000000), (2, 0xFFFFFFFF)]) (fun t => (t.result, t.pc, t.lo)) =
      some (some 0x0, 0x4, 0x80000000) := by decide
theorem test_multu_v72 :
    after (placed 0x00220019 [(1, 0x80000000), (2, 0xFFFFFFFF)]) (fun t => (t.result, t.pc, t.hi, t.lo)) =
      some (some 0x0, 0x4, 0x7FFFFFFF, 0x80000000) := by decide
theorem test_multu_v69 :
    after (placed 0x00220019 [(1, 0xFFFFFFFF), (2, 0xFFFFFFFF)]) (fun t => (t.result, t.pc, t.hi, t.lo)) =
      some (some 0x0, 0x4, 0xFFFFFFFE, 0x1) := by decide
theorem test_div_v76 :
    after (placed 0x0022001A [(1, 0xFFFFFFF9), (2, 0x2)]) (fun t => (t.result, t.pc, t.hi, t.lo)) =
      some (some 0x0, 0x4, 0xFFFFFFFF, 0xFFFFFFFD) := by decide
theorem test_div_v81 :
    after (placed 0x0022001A [(1, 0x80000000), (2, 0xFFFFFFFF)] { State.reset with hi := 0x55555555 })
      (fun t => (t.result, t.pc, t.hi, t.lo)) =
      some (some 0x0, 0x4, 0x0, 0x80000000) := by decide
theorem test_divu_v87 :
    after (placed 0x0022001B [(1, 0x80000000), (2, 0xFFFFFFFF)]) (fun t => (t.result, t.pc, t.hi)) =
      some (some 0x0, 0x4, 0x80000000) := by decide
theorem test_divu_v85 :
    after (placed 0x0022001B [(1, 0xFFFFFFF0), (2, 0x3)]) (fun t => (t.result, t.pc, t.lo)) =
      some (some 0x0, 0x4, 0x55555550) := by decide
theorem test_add_v98 :
    after (placed 0x00220020 [(1, 0x7FFFFFFF), (2, 0x1)]) (fun t => (t.result, t.pc, t.reg 2)) =
      some (some 0x1, 0x4, 0x1) := by decide
theorem test_add_v97 :
    after (placed 0x00221820 [(1, 0x3FFFFFFF), (2, 0x40000000), (3, 0xDEADBEEF)])
      (fun t => (t.result, t.pc, t.reg 3)) =
      some (some 0x0, 0x4, 0x7FFFFFFF) := by decide
theorem test_addu_v102 :
    after (placed 0x00221821 [(1, 0x7FFFFFFF), (2, 0x1), (3, 0xDEADBEEF)]) (fun t => (t.result, t.pc, t.reg 3)) =
      some (some 0x0, 0x4, 0x80000000) := by decide
theorem test_addu_v103 :
    after (placed 0x00221821 [(1, 0xFFFFFFFF), (2, 0x1), (3, 0xDEADBEEF)]) (fun t => (t.result, t.pc, t.reg 3)) =
      some (some 0x0, 0x4, 0x0) := by decide
theorem test_sub_v107 :
    after (placed 0x00221822 [(1, 0x0), (2, 0x80000000), (3, 0xDEADBEEF)]) (fun t => (t.result, t.pc, t.reg 3)) =
      some (some 0x1, 0x4, 0xDEADBEEF) := by decide
theorem test_sub_v112 :
    after (placed 0x00221822 [(1, 0xFFFFFFFF), (2, 0x7FFFFFFF), (3, 0xDEADBEEF)])
      (fun t => (t.result, t.pc, t.reg 3)) =
      some (some 0x0, 0x4, 0x80000000) := by decide
theorem test_subu_v119 :
    after (placed 0x00221823 [(1, 0x0), (2, 0x80000000), (3, 0xDEADBEEF)]) (fun t => (t.result, t.pc, t.reg 3)) =
      some (some 0x0, 0x4, 0x80000000) := by decide
theorem test_subu_v121 :
    after (placed 0x00011823 [(1, 0x1)]) (fun t => (t.result, t.pc, t.reg 3)) =
      some (some 0x0, 0x4, 0xFFFFFFFF) := by decide
theorem test_and_v122 :
    after (placed 0x00221824 [(1, 0xFF00FF00), (2, 0xFF00FF0), (3, 0xDEADBEEF)])
      (fun t => (t.result, t.pc, t.reg 3)) =
      some (some 0x0, 0x4, 0xF000F00) := by decide
theorem test_or_v125 :
    after (placed 0x00221825 [(1, 0xFF00FF00), (2, 0xFF00FF0), (3, 0xDEADBEEF)])
      (fun t => (t.result, t.pc, t.reg 3)) =
      some (some 0x0, 0x4, 0xFFF0FFF0) := by decide
theorem test_xor_v128 :
    after (placed 0x00221826 [(1, 0xFF00FF00), (2, 0xFF00FF0), (3, 0xDEADBEEF)])
      (fun t => (t.result, t.pc, t.reg 3)) =
      some (some 0x0, 0x4, 0xF0F0F0F0) := by decide
theorem test_nor_v135 :
    after (placed 0x00201827 [(1, 0x12345678)]) (fun t => (t.result, t.pc, t.reg 3)) =
      some (some 0x0, 0x4, 0xEDCBA987) := by decide
theorem test_nor_v136 :
    after (placed 0x00001827 []) (fun t => (t.result, t.pc, t.reg 3)) =
      some (some 0x0, 0x4, 0xFFFFFFFF) := by decide
theorem test_slt_v139 :
    after (placed 0x0022182A [(1, 0x80000000), (2, 0x7FFFFFFF), (3, 0xDEADBEEF)])
      (fun t => (t.result, t.pc, t.reg 3)) =
      some (some 0x0, 0x4, 0x1) := by decide
theorem test_slt_v138 :
    after (placed 0x0022182A [(1, 0x1), (2, 0xFFFFFFFF), (3, 0xDEADBEEF)]) (fun t => (t.result, t.pc, t.reg 3)) =
      some (some 0x0, 0x4, 0x0) := by decide
theorem test_sltu_v144 :
    after (placed 0x0022182B [(1, 0x1), (2, 0xFFFFFFFF), (3, 0xDEADBEEF)]) (fun t => (t.result, t.pc, t.reg 3)) =
      some (some 0x0, 0x4, 0x1) := by decide
theorem test_sltu_v145 :
    after (placed 0x0022182B [(1, 0x80000000), (2, 0x7FFFFFFF), (3, 0xDEADBEEF)])
      (fun t => (t.result, t.pc, t.reg 3)) =
      some (some 0x0, 0x4, 0x0) := by decide
theorem test_tge_v153 :
    after (placed 0x00220030 [(1, 0x5), (2, 0x5)]) (fun t => (t.result, t.pc, t.reg 2)) =
      some (some 0x1, 0x4, 0x5) := by decide
theorem test_tge_v154 :
    after (placed 0x00220030 [(1, 0x80000000), (2, 0x7FFFFFFF)]) (fun t => (t.result, t.pc, t.reg 2)) =
      some (some 0x0, 0x4, 0x7FFFFFFF) := by decide
theorem test_tgeu_v155 :
    after (placed 0x00220031 [(1, 0xFFFFFFFF), (2, 0x1)]) (fun t => (t.result, t.pc, t.reg 2)) =
      some (some 0x1, 0x4, 0x1) := by decide
theorem test_tgeu_v156 :
    after (placed 0x00410031 [(1, 0xFFFFFFFF), (2, 0x1)]) (fun t => (t.result, t.pc, t.reg 2)) =
      some (some 0x0, 0x4, 0x1) := by decide
theorem test_tlt_v159 :
    after (placed 0x00220032 [(1, 0xFFFFFFFF), (2, 0x1)]) (fun t => (t.result, t.pc, t.reg 2)) =
      some (some 0x1, 0x4, 0x1) := by decide
theorem test_tlt_v160 :
    after (placed 0x00410032 [(1, 0xFFFFFFFF), (2, 0x1)]) (fun t => (t.result, t.pc, t.reg 2)) =
      some (some 0x0, 0x4, 0x1) := by decide
theorem test_tltu_v163 :
    after (placed 0x00220033 [(1, 0xFFFFFFFF), (2, 0x1)]) (fun t => (t.result, t.pc, t.reg 2)) =
      some (some 0x0, 0x4, 0x1) := by decide
theorem test_tltu_v164 :
    after (placed 0x00410033 [(1, 0xFFFFFFFF), (2, 0x1)]) (fun t => (t.result, t.pc, t.reg 2)) =
      some (some 0x1, 0x4, 0x1) := by decide
theorem test_teq_v169 :
    after (placed 0x00220034 [(1, 0x5), (2, 0x5)]) (fun t => (t.result, t.pc, t.reg 2)) =
      some (some 0x1, 0x4, 0x5) := by decide
theorem test_teq_v167 :
    after (placed 0x00220034 [(1, 0xFFFFFFFF), (2, 0x1)]) (fun t => (t.result, t.pc, t.reg 2)) =
      some (some 0x0, 0x4, 0x1) := by decide
theorem test_tne_v173 :
    after (placed 0x00220036 [(1, 0x5), (2, 0x5)]) (fun t => (t.result, t.pc, t.reg 2)) =
      some (some 0x0, 0x4, 0x5) := by decide
theorem test_tne_v171 :
    after (placed 0x00220036 [(1, 0xFFFFFFFF), (2, 0x1)]) (fun t => (t.result, t.pc, t.reg 2)) =
      some (some 0x1, 0x4, 0x1) := by decide
theorem test_addi_v187 :
    after (placed 0x20228000 [(1, 0x80007FFF), (2, 0xDEADBEEF)]) (fun t => (t.result, t.pc, t.reg 2)) =
      some (some 0x1, 0x4, 0xDEADBEEF) := by decide
theorem test_addi_v184 :
    after (placed 0x20227FFF [(1, 0x80000000), (2, 0xDEADBEEF)]) (fun t => (t.result, t.pc, t.reg 2)) =
      some (some 0x0, 0x4, 0x80007FFF) := by decide
theorem test_addiu_v194 :
    after (placed 0x2422FFFF [(1, 0x0), (2, 0xDEADBEEF)]) (fun t => (t.result, t.pc, t.reg 2)) =
      some (some 0x0, 0x4, 0xFFFFFFFF) := by decide
theorem test_addiu_v198 :
    after (placed 0x24228000 [(1, 0x0), (2, 0xDEADBEEF)]) (fun t => (t.result, t.pc, t.reg 2)) =
      some (some 0x0, 0x4, 0xFFFF8000) := by decide
theorem test_slti_v207 :
    after (placed 0x28228000 [(1, 0xFFFF7FFF), (2, 0xDEADBEEF)]) (fun t => (t.result, t.pc, t.reg 2)) =
      some (some 0x0, 0x4, 0x1) := by decide
theorem test_slti_v201 :
    after (placed 0x2822FFFF [(1, 0x0), (2, 0xDEADBEEF)]) (fun t => (t.result, t.pc, t.reg 2)) =
      some (some 0x0, 0x4, 0x0) := by decide
theorem test_sltiu_v208 :
    after (placed 0x2C22FFFF [(1, 0x10000), (2, 0xDEADBEEF)]) (fun t => (t.result, t.pc, t.reg 2)) =
      some (some 0x0, 0x4, 0x1) := by decide
theorem test_sltiu_v215 :
    after (placed 0x2C228000 [(1, 0xFFFF8000), (2, 0xDEADBEEF)]) (fun t => (t.result, t.pc, t.reg 2)) =
      some (some 0x0, 0x4, 0x0) := by decide
theorem test_andi_v220 :
    after (placed 0x30228000 [(1, 0xFFFFFFFF), (2, 0xDEADBEEF)]) (fun t => (t.result, t.pc, t.reg 2)) =
      some (some 0x0, 0x4, 0x8000) := by decide
theorem test_andi_v221 :
    after (placed 0x3022FFFF [(1, 0x12345678), (2, 0xDEADBEEF)]) (fun t => (t.result, t.pc, t.reg 2)) =
      some (some 0x0, 0x4, 0x5678) := by decide
theorem test_ori_v231 :
    after (placed 0x34028000 []) (fun t => (t.result, t.pc, t.reg 2)) =
      some (some 0x0, 0x4, 0x8000) := by decide
theorem test_ori_v224 :
    after (placed 0x34228000 [(1, 0xFFFFFFFF), (2, 0xDEADBEEF)]) (fun t => (t.result, t.pc, t.reg 2)) =
      some (some 0x0, 0x4, 0xFFFFFFFF) := by decide
theorem test_xori_v228 :
    after (placed 0x38228000 [(1, 0xFFFFFFFF), (2, 0xDEADBEEF)]) (fun t => (t.result, t.pc, t.reg 2)) =
      some (some 0x0, 0x4, 0xFFFF7FFF) := by decide
theorem test_xori_v229 :
    after (placed 0x3822FFFF [(1, 0x12345678), (2, 0xDEADBEEF)]) (fun t => (t.result, t.pc, t.reg 2)) =
      some (some 0x0, 0x4, 0x1234A987) := by decide
theorem test_lui_v232 :
    after (placed 0x3C22AAAA [(1, 0xCCCCCCCC), (2, 0xDEADBEEF)]) (fun t => (t.result, t.pc, t.reg 2)) =
      some (some 0x0, 0x4, 0xAAAACCCC) := by decide
theorem test_lui_v236 :
    after (placed 0x3C21ABCD [(1, 0x12345678)]) (fun t => (t.result, t.pc, t.reg 1)) =
      some (some 0x0, 0x4, 0xABCD5678) := by decide

/-! Division by zero completes and keeps the registers (45_hilo_muldiv.md R115); `HI` and `LO` are not looked at. -/

theorem test_div_by_zero :
    after (placed 0x0020001A [(1, 7)])
      (fun t => (t.result, t.pc, t.reg 1, t.draws)) = some (some 0, 4, 7, 1) := by decide
theorem test_divu_by_zero :
    after (placed 0x0020001B [(1, 7)])
      (fun t => (t.result, t.pc, t.reg 1, t.draws)) = some (some 0, 4, 7, 1) := by decide

/-! ### Errors of a step (95_test_vectors.md 2.11, 2.12): the state stays, a second step answers the same -/

theorem test_step_x3_invalid : failure (placed 0x0000000C []) = some (.invalidOperation 0x0000000C) := by decide
theorem test_step_x23_invalid : failure (placed 0x8C220000 []) = some (.invalidOperation 0x8C220000) := by decide
theorem test_step_invalid_changes_nothing :
    (placed 0x0000000C [(1, 7)]).performAll [.step, .step] =
      ([.error (.invalidOperation 12), .error (.invalidOperation 12)], placed 0x0000000C [(1, 7)]) := by decide

/-- F1: `pc = 6`, the bytes 55 00 02 24 there. -/
theorem test_fetch_f1_unaligned :
    after (placed 0x24020055 [] { State.reset with pc := 6, memCapacity := 64 }) (fun t => (t.pc, t.reg 2)) =
      some (10, 0x55) := by decide
theorem test_fetch_f2_out_of_range :
    failure { State.reset with pc := 13, memCapacity := 16 } = some (.addressOutOfRange 13 4) := by decide
theorem test_fetch_f4_wraps :
    after (placed 0x24010001 [] { State.reset with pc := 0xFFFFFFFC }) (fun t => (t.pc, t.reg 1)) = some (0, 1) := by
  decide
theorem test_fetch_f5_no_wrap :
    failure { State.reset with pc := 0xFFFFFFFD } = some (.addressOutOfRange 0xFFFFFFFD 4) := by decide
theorem test_fetch_f6_patched :
    ((placed 0x24010001 []).performAll [.step, .storeWord 0x24010002 4, .step, .getRegister 1]).1 =
      [.code 0, .done, .code 0, .word 2] := by decide

/-! ### The host interface (95_test_vectors.md 2.10) -/

/-- Memory of 16 bytes, no program. -/
def sixteen : State := { State.reset with memCapacity := 16 }

theorem test_host_m1_to_m4 :
    (sixteen.performAll [.loadWord 0, .storeWord 0x01020304 0, .loadByte 0, .loadByte 3]).1 =
      [.word 0, .done, .byte 4, .byte 1] := by decide
theorem test_host_m5_to_m8 :
    (sixteen.performAll [.storeWord 0x01020304 0, .storeWord 0xAABBCCDD 5, .loadWord 5, .loadWord 4, .loadWord 2]).1 =
      [.done, .done, .word 0xAABBCCDD, .word 0xBBCCDD00, .word 0xDD000102] := by decide
theorem test_host_m11_m12 :
    (sixteen.performAll [.storeByte 0x7F 15, .loadWord 12]).1 = [.done, .word 0x7F000000] := by decide
theorem test_host_m13 : sixteen.perform (.loadWord 13) = (.error (.addressOutOfRange 13 4), sixteen) := by decide
theorem test_host_m14 :
    sixteen.perform (.storeWord 0xFFFFFFFF 13) = (.error (.addressOutOfRange 13 4), sixteen) := by decide
theorem test_host_m16 :
    sixteen.perform (.storeByte 0x55 16) = (.error (.addressOutOfRange 16 1), sixteen) := by decide
theorem test_host_m17 :
    sixteen.perform (.loadWord 0xFFFFFFFF) = (.error (.addressOutOfRange 0xFFFFFFFF 4), sixteen) := by decide
theorem test_host_g1_to_g6 :
    (sixteen.performAll [.getRegister 7, .setRegister 7 0xFFFFFFFF, .getRegister 7, .setRegister 0 0x12345678,
      .getRegister 0, .setRegister 31 64, .getRegister 31]).1 =
      [.word 0, .done, .word 0xFFFFFFFF, .done, .word 0, .done, .word 64] := by decide
theorem test_host_g7 : sixteen.perform (.getRegister 32) = (.error (.registerIndexOutOfRange 32), sixteen) := by decide
theorem test_host_g8 :
    sixteen.perform (.setRegister 32 1) = (.error (.registerIndexOutOfRange 32), sixteen) := by decide

theorem test_construct_k2 :
    (State.construct 8 [0x24010007, 0x0200048D]).map (fun s => (s.mem, s.pc, s.reg 1, s.hi, s.lo)) =
      some ([(0, 0x07), (2, 0x01), (3, 0x24), (4, 0x8D), (5, 0x04), (7, 0x02)], 0, 0, 0, 0) := by decide
theorem test_construct_k3 : State.construct 7 [0x24010007, 0x0200048D] = none := by decide
theorem test_construct_k4 : (State.construct 0 []).map failure = some (some (.addressOutOfRange 0 4)) := by decide
theorem test_construct_k5 :
    (State.construct 3 []).map (fun s => (s.performAll [.loadByte 2, .step]).1) =
      some [.byte 0, .error (.addressOutOfRange 0 4)] := by decide
theorem test_construct_capacity_2_32 : State.construct 4294967296 [] = some State.reset := by decide
theorem test_construct_capacity_above_2_32 : State.construct 4294967297 [] = none := by decide

/-- The outcome is the next state `t`, as a test. -/
def isNext (o : Host.Outcome State Fault Refusal) (t : State) : Bool :=
  match o with
  | .next u => u = t
  | .fault _ => false
  | .refused _ => false

theorem eq_next {o : Host.Outcome State Fault Refusal} {t : State} (h : isNext o t = true) : o = .next t := by
  cases o <;> simp_all [isNext]

/-! ### Witnesses: states and operands that meet the hypotheses of the statements, clause by clause -/

theorem test_witness_ShiftBitwise : ∃ i : Nat, i < 32 ∧ 31 ≤ i := ⟨31, by decide⟩

theorem test_witness_DivideByZeroIsFree : ∃ s : State, s.reg 2 = 0#32 ∧ s.reg 1 = 7 :=
  ⟨placed 0 [(1, 7)], by decide⟩

theorem test_witness_DivideOverflow : ∃ s : State, s.reg 1 = 0x80000000#32 ∧ s.reg 2 = 0xFFFFFFFF#32 :=
  ⟨placed 0 [(1, 0x80000000), (2, 0xFFFFFFFF)], by decide⟩

/-- -16 / 3, T9. -/
theorem test_witness_DivisionIdentity : ∃ s t : State,
    exec (.div 1 2) s = .next t ∧ s.reg 2 ≠ 0#32 ∧
    ¬ (s.reg 1 = 0x80000000#32 ∧ s.reg 2 = 0xFFFFFFFF#32) ∧ t.lo = 0xFFFFFFFB ∧ t.hi = 0xFFFFFFFF :=
  ⟨placed 0 [(1, 0xFFFFFFF0), (2, 3)],
    { placed 0 [(1, 0xFFFFFFF0), (2, 3)] with hi := 0xFFFFFFFF, lo := 0xFFFFFFFB, result := some 0 },
    eq_next (by decide), by decide⟩

theorem test_witness_HiLoKept : ∃ (i : Instr) (s t : State),
    exec i s = .next t ∧ writesHi i = false ∧
    writesLo i = false ∧ s.hi = 5 ∧ s.lo = 6 :=
  ⟨.sll 1 1 0, { State.reset with hi := 5, lo := 6 }, { State.reset with hi := 5, lo := 6, result := some 0 },
    eq_next (by decide), by decide⟩
theorem test_witness_HiLoKept_mthi_keeps_lo : ∃ (i : Instr) (s t : State),
    exec i s = .next t ∧ writesHi i = true ∧
    writesLo i = false ∧ s.hi ≠ t.hi ∧ s.lo = 6 :=
  ⟨.mthi 0, { State.reset with hi := 5, lo := 6 }, { State.reset with hi := 0, lo := 6, result := some 0 },
    eq_next (by decide), by decide⟩
theorem test_witness_HiLoKept_mtlo_keeps_hi : ∃ (i : Instr) (s t : State),
    exec i s = .next t ∧ writesHi i = false ∧
    writesLo i = true ∧ s.lo ≠ t.lo ∧ s.hi = 5 :=
  ⟨.mtlo 0, { State.reset with hi := 5, lo := 6 }, { State.reset with hi := 5, lo := 0, result := some 0 },
    eq_next (by decide), by decide⟩
theorem test_witness_HiLoKept_reserved : ∃ w : Word, opcodeOf w = 0#6 ∧
    (functOf w).toNat ∈ [20, 21, 22, 23, 28, 29, 30, 31] := ⟨0x00220014, by decide⟩

theorem test_witness_HiLoReaders : ∃ (i : Instr) (s t : State), readsHiLo i = false ∧ AgreeButHiLo s t ∧
    s.hi ≠ t.hi ∧ s.lo ≠ t.lo :=
  ⟨.add 1 2 3, State.reset, { State.reset with hi := 1, lo := 1 }, by decide, by unfold AgreeButHiLo; decide, by decide,
    by decide⟩
theorem test_witness_HiLoReaders_mfhi : ∃ s t : State, AgreeButHiLo s t ∧ s.hi = t.hi ∧ s.lo ≠ t.lo :=
  ⟨State.reset, { State.reset with lo := 1 }, by unfold AgreeButHiLo; decide, by decide, by decide⟩
theorem test_witness_HiLoReaders_mflo : ∃ s t : State, AgreeButHiLo s t ∧ s.lo = t.lo ∧ s.hi ≠ t.hi :=
  ⟨State.reset, { State.reset with hi := 1 }, by unfold AgreeButHiLo; decide, by decide, by decide⟩

theorem test_witness_RegisterWriters : ∃ (i : Instr) (s t : State) (j : RegIdx),
    exec i s = .next t ∧ destination i ≠ some j ∧ t.reg 3 ≠ s.reg 3 :=
  ⟨.addiu 3 0 5, State.reset, (State.reset.setReg 3 5).setResult 0, 4,
    eq_next (by decide), by decide⟩
theorem test_witness_RegisterWriters_x0 : ∃ (i : Instr) (s t : State),
    exec i s = .next t ∧ destination i = some 0#5 :=
  ⟨.addiu 0 0 5, State.reset, State.reset.setResult 0,
    eq_next (by decide), by decide⟩

/-- `addiu r1,r0,5` at the top of the address space: the pc wraps to 0. -/
def topOfMemory : State := placed 0x24010005 [] { State.reset with pc := 0xFFFFFFFC }

theorem test_witness_SequentialFlow : ∃ (i : Instr) (s t : State),
    step s = .next t ∧ decodeWord (s.mem.readWord s.pc.toNat) = some i ∧ isJump i = false ∧ t.pc = 0 :=
  ⟨.addiu 1 0 5, topOfMemory, ((topOfMemory.setPc 0).setReg 1 5).setResult 0,
    eq_next (by decide), by decide⟩

theorem test_witness_TrapChangesOnlyPc : ∃ (i : Instr) (s t : State),
    step s = .next t ∧ decodeWord (s.mem.readWord s.pc.toNat) = some i ∧ canTrap i = true ∧ t.result = some 1#32 :=
  ⟨.teq 0 0, placed 0x34 [], ((placed 0x34 []).setPc 4).setResult 1,
    eq_next (by decide), by decide⟩
theorem test_witness_TrapChangesOnlyPc_untaken : ∃ (i : Instr) (s t : State),
    step s = .next t ∧ decodeWord (s.mem.readWord s.pc.toNat) = some i ∧ canTrap i = true ∧ t.result = some 0#32 :=
  ⟨.tne 0 0, placed 0x36 [], ((placed 0x36 []).setPc 4).setResult 0,
    eq_next (by decide), by decide⟩

theorem test_witness_PcReaders : ∃ (i : Instr) (s t : State),
    exec i s = .next t ∧ isJump i = false :=
  ⟨.addiu 1 0 5, State.reset, (State.reset.setReg 1 5).setResult 0,
    eq_next (by decide), by decide⟩
theorem test_witness_PcReaders_jr : ∃ s t : State,
    exec (.jr 1) s = .next t ∧ t.pc = 8 :=
  ⟨placed 0 [(1, 8)], ((placed 0 [(1, 8)]).setPc 8).setResult 0,
    eq_next (by decide), by decide⟩

theorem test_witness_StepKeepsMemory : ∃ s t : State,
    step s = .next t ∧ s.mem ≠ [] :=
  ⟨topOfMemory, ((topOfMemory.setPc 0).setReg 1 5).setResult 0,
    eq_next (by decide), by decide⟩

theorem test_witness_StepRunsDecodedInstruction : ∃ (i : Instr) (s : State), s.pc.toNat + 4 = s.memCapacity ∧
    decodeWord (s.mem.read (s.pc.toNat + 3) ++ s.mem.read (s.pc.toNat + 2) ++ s.mem.read (s.pc.toNat + 1) ++
      s.mem.read s.pc.toNat) = some i :=
  ⟨.addiu 1 0 5, topOfMemory, by decide⟩

/-- `StepOutcomes`: the range clause just beyond the last word, the other two exactly at it. -/
theorem test_witness_StepOutcomes_range : ∃ s : State, s.memCapacity + 1 = s.pc.toNat + 4 ∧
    failure s = some (.addressOutOfRange s.pc 4) := ⟨{ State.reset with memCapacity := 3 }, by decide⟩
theorem test_witness_StepOutcomes_invalid : ∃ s : State, s.memCapacity = s.pc.toNat + 4 ∧
    decodeWord (s.mem.readWord s.pc.toNat) = none :=
  ⟨placed 0x0000000C [] { State.reset with memCapacity := 4 }, by decide⟩
theorem test_witness_StepOutcomes_valid : ∃ s : State, s.memCapacity = s.pc.toNat + 4 ∧
    (decodeWord (s.mem.readWord s.pc.toNat)).isSome = true :=
  ⟨placed 0x24010005 [] { State.reset with memCapacity := 4 }, by decide⟩

theorem test_witness_DecoderFollowsTable : ∃ (w : Word) (i : Instr), decodeWord w = some i ∧ tableMask i = 0xFC00003F ∧
    tableMatch i = 0x20 := ⟨0x00221820, .add 3 1 2, by decide⟩

theorem test_witness_IgnoredFields : ∃ (w w' : Word) (i : Instr), decodeWord w = some i ∧ w ≠ w' ∧
    w' &&& usedBits i = w &&& usedBits i := ⟨0x00221FE4, 0x00221824, .and 3 1 2, by decide⟩

theorem test_witness_StepKeepsInvariant : ∃ s t : State, s.Inv ∧ step s = .next t :=
  ⟨topOfMemory, ((topOfMemory.setPc 0).setReg 1 5).setResult 0, by unfold State.Inv; decide, eq_next (by decide)⟩

theorem test_witness_HostRunKeepsInvariant : ∃ s : State, s.Inv ∧ s.mem ≠ [] ∧ s.memCapacity = 4 :=
  ⟨placed 0x24010005 [] { State.reset with memCapacity := 4 }, by unfold State.Inv; decide, by decide⟩

theorem test_witness_ConstructionInvariant : ∃ s : State, State.construct 8 [0x24010007, 0x0200048D] = some s :=
  ⟨{ State.reset with
      memCapacity := 8, mem := [(0, 0x07), (2, 0x01), (3, 0x24), (4, 0x8D), (5, 0x04), (7, 0x02)] }, by decide⟩

theorem test_witness_ProgramLoad : ∃ (capacity : Nat) (program : List Word), 4 * program.length = capacity ∧
    capacity ≤ 4294967296 ∧ 1 < program.length := ⟨8, [0x24010007, 0x0200048D], by decide⟩

/-- Both clauses at the last place in memory, and at the last address of the address space. -/
theorem test_witness_StoreWritesExactly : ∃ (s : State) (addr addr' : Word), s.mem.wf ∧
    addr.toNat + 4 = s.memCapacity ∧ addr'.toNat + 1 = s.memCapacity := ⟨sixteen, 12, 15, by decide⟩
theorem test_witness_StoreWritesExactly_top : ∃ (s : State) (addr addr' : Word), s.mem.wf ∧
    addr.toNat + 4 = s.memCapacity ∧ addr'.toNat + 1 = s.memCapacity :=
  ⟨State.reset, 0xFFFFFFFC, 0xFFFFFFFF, by decide⟩

theorem test_witness_LoadReads : ∃ (s : State) (addr addr' : Word), addr.toNat + 1 = s.memCapacity ∧
    addr'.toNat + 4 = s.memCapacity := ⟨sixteen, 15, 12, by decide⟩

theorem test_witness_StoreThenLoadWord : ∃ (s : State) (addr : Word), s.Inv ∧ addr.toNat + 4 ≤ s.memCapacity ∧
    addr.toNat % 4 = 1 := ⟨sixteen, 5, by unfold State.Inv; decide, by decide⟩

theorem test_witness_OutOfRangeAccess : ∃ (s : State) (addr addr' : Word), s.memCapacity + 1 = addr.toNat + 1 ∧
    s.memCapacity + 1 = addr'.toNat + 4 := ⟨sixteen, 16, 13, by decide⟩

/-- `RegisterAccessors`: indices 31 and 32, where its two clauses meet. -/
theorem test_witness_RegisterAccessors :
    (sixteen.perform (.setRegister 31 7)).1 = .done ∧ (sixteen.perform (.setRegister 32 7)).1 ≠ .done := by decide

theorem test_witness_FetchSeesStore : ∃ (s : State) (w : Word) (i : Instr), s.mem.wf ∧
    s.pc.toNat + 4 ≤ s.memCapacity ∧ decodeWord w = some i ∧ s.mem.readWord s.pc.toNat ≠ w :=
  ⟨placed 0x24010005 [], 0x24010006, .addiu 1 0 6, by decide⟩

end Sys2Proof.Tests
end

/-! SUPPORT. The family of 10_state.md: registers, the readers and writers of each piece of state, the state after
reset. -/

namespace Sys2Proof.Machine

/-! ### Rules of the register file -/

/-- A register write touches the general registers only. -/
theorem State.setReg_eq_with_gpr (s : State) (i : RegIdx) (v : Word) :
    ∃ g, s.setReg i v = { s with gpr := g } := by
  unfold State.setReg
  split
  · exact ⟨s.gpr, rfl⟩
  · exact ⟨_, rfl⟩

/-- A write to another register, or any write as `x[0]` sees it, changes nothing. -/
theorem State.reg_setReg_of_ne {i j : RegIdx} (h : i ≠ j ∨ j = 0#5) (s : State) (v : Word) :
    (s.setReg i v).reg j = s.reg j := by
  rw [s.reg_setReg, if_neg]
  rintro ⟨rfl, hj⟩
  exact h.elim (· rfl) hj

theorem State.setReg_setPc (s : State) (i : RegIdx) (v p : Word) :
    (s.setPc p).setReg i v = (s.setReg i v).setPc p := by
  unfold State.setReg
  split <;> rfl

/-- Reads depend on the register file alone. -/
theorem State.reg_congr {s t : State} (h : t.gpr = s.gpr) : t.reg = s.reg := by
  funext i
  simp only [State.reg, h]

/-! ### What an instruction can do

Every instruction ends in one of a few ways, and which one, with which values, is settled by the general registers it
reads (by `HI` for `mfhi`, by `LO` for `mflo`). -/

/-- The ways `i` may end, as functions of the state `i` runs in. The premises are the parts of the state that `i` is
listed as writing. -/
inductive Ending (i : Instr) : (State → Host.Outcome State Fault Refusal) → Prop where
  | code (c : Word) (h : c = 0#32 ∨ (c = 1#32 ∧ canTrap i = true) ∨ isBreak i = true) : Ending i (complete c)
  | write (rd : RegIdx) (v : Word) (h : destination i = some rd) : Ending i (writeBack rd v)
  | hi (v : Word) (h : writesHi i = true) : Ending i (fun s => complete 0#32 (s.setHi v))
  | lo (v : Word) (h : writesLo i = true) : Ending i (fun s => complete 0#32 (s.setLo v))
  | hiLo (v w : Word) (hh : writesHi i = true) (hl : writesLo i = true) : Ending i (writeHiLo v w)
  | divZero (signed : Bool) (v : Word) (hh : writesHi i = true) (hl : writesLo i = true) :
      Ending i (divideByZero signed v)
  | jump (a : Word) (h : isJump i = true) : Ending i (fun s => complete 0#32 (s.setPc a))
  | link (rs : RegIdx) (h : i = .jalr rs) : Ending i (execJalr rs)

theorem Ending.of_trapIf {i : Instr} (h : canTrap i = true) (c : Bool) : Ending i (trapIf c) := by
  cases c
  · exact .code 0#32 (.inl rfl)
  · exact .code 1#32 (.inr (.inl ⟨rfl, h⟩))

theorem Ending.of_trappingWrite {i : Instr} {rd : RegIdx} (hd : destination i = some rd) (ht : canTrap i = true)
    (n : Int) : Ending i (trappingWrite rd n) := by
  unfold trappingWrite
  split
  · exact .write rd _ hd
  · exact .code 1#32 (.inr (.inl ⟨rfl, ht⟩))

/-- Two states with the same general registers make an instruction end in the same way, once they agree on `HI` for
`mfhi` and on `LO` for `mflo`. At `t = s`: everything an instruction can do. -/
theorem exec_ending {s t : State} (i : Instr) (hreg : t.reg = s.reg) (hhi : ∀ rd, i = .mfhi rd → t.hi = s.hi)
    (hlo : ∀ rd, i = .mflo rd → t.lo = s.lo) : ∃ o, Ending i o ∧ exec i s = o s ∧ exec i t = o t := by
  cases i with
  | sll | srl | sra | sllv | srlv | srav | addu | subu | and | or | xor | nor | slt | sltu
  | addiu | slti | sltiu | andi | ori | xori | lui => exact ⟨_, .write _ _ rfl, rfl, by rw [← hreg]; rfl⟩
  | add | sub | addi => exact ⟨_, .of_trappingWrite rfl rfl _, rfl, by rw [← hreg]; rfl⟩
  | tge | tgeu | tlt | tltu | teq | tne => exact ⟨_, .of_trapIf rfl _, rfl, by rw [← hreg]; rfl⟩
  | mult | multu => exact ⟨_, .hiLo _ _ rfl rfl, rfl, by rw [← hreg]; rfl⟩
  | brk => exact ⟨_, .code _ (.inr (.inr rfl)), rfl, rfl⟩
  | mfhi rd => exact ⟨_, .write rd s.hi rfl, rfl, by rw [← hhi rd rfl]; rfl⟩
  | mflo rd => exact ⟨_, .write rd s.lo rfl, rfl, by rw [← hlo rd rfl]; rfl⟩
  | mthi => exact ⟨_, .hi _ rfl, rfl, by rw [← hreg]; rfl⟩
  | mtlo => exact ⟨_, .lo _ rfl, rfl, by rw [← hreg]; rfl⟩
  | jr => exact ⟨_, .jump _ rfl, rfl, by rw [← hreg]; rfl⟩
  | jalr rs => exact ⟨_, .link rs rfl, rfl, rfl⟩
  | movz | movn =>
    simp only [exec, execMovz, execMovn, hreg]
    split
    · exact ⟨_, .write _ _ rfl, rfl, rfl⟩
    · exact ⟨_, .code 0#32 (.inl rfl), rfl, rfl⟩
  | div | divu =>
    simp only [exec, execDiv, execDivu, hreg]
    split
    · exact ⟨_, .divZero _ _ rfl rfl, rfl, rfl⟩
    · exact ⟨_, .hiLo _ _ rfl rfl, rfl, rfl⟩

/-- `exec_ending` for one run. -/
theorem exec_ending_self (i : Instr) (s : State) : ∃ o, Ending i o ∧ exec i s = o s := by
  obtain ⟨o, ho, hs, -⟩ := exec_ending (s := s) (t := s) i rfl (fun _ _ => rfl) (fun _ _ => rfl)
  exact ⟨o, ho, hs⟩

/-! ### What each ending keeps -/

section
variable {i : Instr} {o : State → Host.Outcome State Fault Refusal} {s t : State}

/-- No ending writes a register that is not the instruction's destination. -/
theorem Ending.reg_eq (ho : Ending i o) {j : RegIdx} (hj : destination i ≠ some j ∨ j = 0#5) (h : o s = .next t) :
    t.reg j = s.reg j := by
  cases ho with
  | code | hi | lo | hiLo | divZero | jump => cases h; rfl
  | write rd v hd =>
    cases h
    exact State.reg_setReg_of_ne (hj.imp_left fun hne e => hne (e ▸ hd)) s v
  | link rs hi =>
    cases h
    subst hi
    exact State.reg_setReg_of_ne (hj.imp_left fun hne e => hne (congrArg some e)) s s.pc

/-- Only the register jumps see or replace `pc`. -/
theorem Ending.setPc (ho : Ending i o) (hj : isJump i = false) (h : o s = .next t) (p : Word) :
    o (s.setPc p) = .next (t.setPc p) := by
  cases ho with
  | code | hi | lo | hiLo | divZero => cases h; rfl
  | write rd v hd =>
    cases h
    simp only [writeBack, State.setReg_setPc]
    rfl
  | jump a hjump => simp [hjump] at hj
  | link rs hi => subst hi; cases hj

end

/-! ### States that differ in `HI` and `LO` -/

section
variable {s t : State}

theorem AgreeButHiLo.reg_eq (h : AgreeButHiLo s t) : t.reg = s.reg := State.reg_congr h.left

theorem AgreeButHiLo.pc_eq : AgreeButHiLo s t → t.pc = s.pc := fun ⟨_, hpc, _⟩ => hpc

theorem AgreeButHiLo.setReg (h : AgreeButHiLo s t) (i : RegIdx) (v : Word) :
    AgreeButHiLo (s.setReg i v) (t.setReg i v) := by
  have hgpr : (t.setReg i v).gpr = (s.setReg i v).gpr := gpr_ext fun j => by simp only [State.reg_setReg, h.reg_eq]
  obtain ⟨-, hrest⟩ := h
  exact ⟨hgpr, by simpa using hrest⟩

theorem AgreeButHiLo.setPc (h : AgreeButHiLo s t) (a : Word) : AgreeButHiLo (s.setPc a) (t.setPc a) := by
  obtain ⟨hgpr, -, hrest⟩ := h
  exact ⟨hgpr, rfl, hrest⟩

theorem AgreeButHiLo.drawn (h : AgreeButHiLo s t) : AgreeButHiLo s.drawn t.drawn := by
  obtain ⟨hgpr, hpc, hmem, hcap, hres, hdraws⟩ := h
  exact ⟨hgpr, hpc, hmem, hcap, hres, congrArg (· + 1) hdraws⟩

theorem AgreeButHiLo.setResult (h : AgreeButHiLo s t) (c : Word) : AgreeButHiLo (s.setResult c) (t.setResult c) := by
  obtain ⟨hgpr, hpc, hmem, hcap, -, hdraws⟩ := h
  exact ⟨hgpr, hpc, hmem, hcap, rfl, hdraws⟩

/-- Every ending answers a next state and adds no difference outside `HI` and `LO`. -/
theorem Ending.agreeButHiLo {i : Instr} {o : State → Host.Outcome State Fault Refusal} (ho : Ending i o)
    (h : AgreeButHiLo s t) : ∃ s' t', o s = .next s' ∧ o t = .next t' ∧ AgreeButHiLo s' t' := by
  cases ho with
  | code c => exact ⟨_, _, rfl, rfl, h.setResult c⟩
  | write rd v => exact ⟨_, _, rfl, rfl, (h.setReg rd v).setResult 0#32⟩
  | hi | lo | hiLo => exact ⟨_, _, rfl, rfl, h.setResult 0#32⟩
  | divZero => exact ⟨_, _, rfl, rfl, h.drawn.setResult 0#32⟩
  | jump a => exact ⟨_, _, rfl, rfl, (h.setPc a).setResult 0#32⟩
  | link rs =>
    have hlink : AgreeButHiLo (linked s) (linked t) := by
      unfold linked
      rw [h.pc_eq]
      exact h.setReg 31#5 s.pc
    refine ⟨_, _, rfl, rfl, ?_⟩
    rw [hlink.reg_eq]
    exact (hlink.setPc _).setResult 0#32

/-- Two runs that differ in `HI` and `LO` at most stay so, for `mfhi` with equal `HI`, for `mflo` with equal `LO`. -/
theorem exec_agreeButHiLo (i : Instr) (h : AgreeButHiLo s t) (hhi : ∀ rd, i = .mfhi rd → t.hi = s.hi)
    (hlo : ∀ rd, i = .mflo rd → t.lo = s.lo) :
    ∃ s' t', exec i s = .next s' ∧ exec i t = .next t' ∧ AgreeButHiLo s' t' := by
  obtain ⟨o, ho, hs, ht⟩ := exec_ending i h.reg_eq hhi hlo
  rw [hs, ht]
  exact ho.agreeButHiLo h

end

/-! ### The obligations -/

/-- Settles O1: the rules of the register file, and the host's accessors at index 0 as calls of them. -/
theorem registerReadAfterWrite : Obligations.RegisterReadAfterWrite := by
  intro s i j v
  have hset : s.perform (.setRegister 0 v) = (.done, s) := by simp [State.perform, setRegister]
  have hget : s.perform (.getRegister 0) = (.word 0#32, s) := by simp [State.perform, getRegister]
  exact ⟨s.reg_setReg i j v, s.setReg_eq_with_gpr i v, s.reg_zero, s.setReg_zero v, hset, hget⟩

/-- Settles O17: the ending is chosen without `HI` and `LO`, and every ending keeps the agreement. -/
theorem hiLoReaders : Obligations.HiLoReaders := by
  refine ⟨fun i s t hread h => ?_, fun rd s t h => ⟨fun hhi => ?_, fun hlo => ?_⟩⟩
  · exact exec_agreeButHiLo i h (fun rd hi => by subst hi; cases hread) (fun rd hi => by subst hi; cases hread)
  · exact exec_agreeButHiLo _ h (fun _ _ => hhi.symm) nofun
  · exact exec_agreeButHiLo _ h nofun (fun _ _ => hlo.symm)

/-- Settles O31: no ending writes a register that is not the destination. -/
theorem registerWriters : Obligations.RegisterWriters := by
  intro i s t j h hj
  obtain ⟨o, ho, hs⟩ := exec_ending_self i s
  exact ho.reg_eq hj (hs ▸ h)

/-- Settles O34: the ending is chosen without `pc`, and no ending but a jump's sees it; `jr` overwrites it. -/
theorem pcReaders : Obligations.PcReaders := by
  refine fun i s t p h => ⟨fun hj => ?_, fun ⟨rs, hi⟩ => ?_⟩
  · obtain ⟨o, ho, hs, hp⟩ := exec_ending (s := s) (t := s.setPc p) i rfl (fun _ _ => rfl) (fun _ _ => rfl)
    rw [hp]
    exact ho.setPc hj (hs ▸ h) p
  · subst hi
    exact h

/-- Settles O47, from the definition of the state after reset. -/
theorem resetValues : Obligations.ResetValues := by
  have hreg : ∀ i, State.reset.reg i = 0#32 := fun i => by simp [State.reg, State.reset]
  exact ⟨fun _ => rfl, rfl, hreg, rfl, rfl, rfl⟩

end Sys2Proof.Machine

/-! SUPPORT. The family of 20_memory.md: what the host's accessors read and write, what a step leaves of memory, and
the invariant along a step. -/

namespace Sys2Proof.Machine

/-! ### Rules of the host's accessors

One for each accessor in range; the other answer of each is the error of `OutOfRangeAccess`. -/

section
variable {s : State} {addr : Word}

theorem perform_loadByte (h : addr.toNat + 1 ≤ s.memCapacity) :
    s.perform (.loadByte addr) = (.byte (s.mem.read addr.toNat), s) := by
  simp only [State.perform, loadByte_eq, if_pos h]

theorem perform_loadWord (h : addr.toNat + 4 ≤ s.memCapacity) :
    s.perform (.loadWord addr) = (.word (s.mem.readWord addr.toNat), s) := by
  simp only [State.perform, loadWord_eq, if_pos h]

theorem perform_storeByte (h : addr.toNat + 1 ≤ s.memCapacity) (b : Byte) :
    s.perform (.storeByte b addr) = (.done, { s with mem := s.mem.write addr.toNat b }) := by
  simp only [State.perform, storeByte_eq, if_pos h, replyStored_ok]

theorem perform_storeWord (h : addr.toNat + 4 ≤ s.memCapacity) (v : Word) :
    s.perform (.storeWord v addr) = (.done, { s with mem := s.mem.writeWord addr.toNat v }) := by
  simp only [State.perform, storeWord_eq, if_pos h, replyStored_ok]

end

/-! ### Bytes and words -/

/-- The little-endian composition of R33 as a sum of weighted bytes. -/
theorem wordOfBytes_eq_ofNat (b0 b1 b2 b3 : Byte) : wordOfBytes b0 b1 b2 b3 =
    BitVec.ofNat 32 (b0.toNat + 256 * b1.toNat + 65536 * b2.toNat + 16777216 * b3.toNat) := by
  apply BitVec.eq_of_toNat_eq
  simp only [wordOfBytes, BitVec.toNat_append, BitVec.toNat_ofNat]
  rw [← Nat.shiftLeft_add_eq_or_of_lt b2.isLt, ← Nat.shiftLeft_add_eq_or_of_lt b1.isLt,
    ← Nat.shiftLeft_add_eq_or_of_lt b0.isLt]
  simp only [Nat.shiftLeft_eq]
  omega

/-- `Memory.read_writeWord` with each of the four addresses named (R34). -/
theorem Memory.read_writeWord_cases {m : Memory} (h : m.wf) (k j : Nat) (v : Word) :
    (m.writeWord k v).read j = if j = k then byteOfWord v 0 else if j = k + 1 then byteOfWord v 1
      else if j = k + 2 then byteOfWord v 2 else if j = k + 3 then byteOfWord v 3 else m.read j := by
  rw [Memory.read_writeWord h]
  by_cases hj : k ≤ j ∧ j < k + 4
  · obtain ⟨d, rfl⟩ := Nat.exists_eq_add_of_le hj.left
    obtain rfl | rfl | rfl | rfl : d = 0 ∨ d = 1 ∨ d = 2 ∨ d = 3 := by omega
    all_goals simp
  · rw [if_neg hj, if_neg (by omega), if_neg (by omega), if_neg (by omega), if_neg (by omega)]

/-- No wrap at the `k`-th of the bytes of an access that is in memory (R36, R39). -/
theorem toNat_add_of_inRange {s : State} {addr : Word} (hs : s.Inv) {k : Nat} (h : addr.toNat + k < s.memCapacity) :
    (addr + BitVec.ofNat 32 k).toNat = addr.toNat + k := by
  obtain ⟨hcap, -, -⟩ := hs
  have : s.memCapacity ≤ 4294967296 := hcap
  rw [BitVec.toNat_add, BitVec.toNat_ofNat]
  omega

/-- Storing the bytes of a word one after another answers done four times and leaves what `store_word` leaves. -/
theorem performAll_storeBytes {s : State} {addr : Word} (hs : s.Inv) (h : addr.toNat + 4 ≤ s.memCapacity) (v : Word)
    (ops : List HostOp) :
    s.performAll (.storeByte (v.extractLsb' 0 8) addr :: .storeByte (v.extractLsb' 8 8) (addr + 1#32) ::
      .storeByte (v.extractLsb' 16 8) (addr + 2#32) :: .storeByte (v.extractLsb' 24 8) (addr + 3#32) :: ops) =
    (.done :: .done :: .done :: .done :: (State.performAll { s with mem := s.mem.writeWord addr.toNat v } ops).1,
      (State.performAll { s with mem := s.mem.writeWord addr.toNat v } ops).2) := by
  have h1 := toNat_add_of_inRange hs (addr := addr) (k := 1) (by omega)
  have h2 := toNat_add_of_inRange hs (addr := addr) (k := 2) (by omega)
  have h3 := toNat_add_of_inRange hs (addr := addr) (k := 3) (by omega)
  have b0 : addr.toNat + 1 ≤ s.memCapacity := by omega
  have b1 : addr.toNat + 1 + 1 ≤ s.memCapacity := by omega
  have b2 : addr.toNat + 2 + 1 ≤ s.memCapacity := by omega
  have b3 : addr.toNat + 3 + 1 ≤ s.memCapacity := h
  simp only [performAll_cons, perform_storeByte, h1, h2, h3, b0, b1, b2, b3, Memory.writeWord, byteOfWord]

/-! ### What a step leaves of memory -/

/-- No ending touches memory or the capacity, and each gives a result code. -/
theorem Ending.keeps_memory {i : Instr} {o : State → Host.Outcome State Fault Refusal} {s t : State}
    (ho : Ending i o) (h : o s = .next t) :
    t.mem = s.mem ∧ t.memCapacity = s.memCapacity ∧ t.result.isSome = true := by
  cases ho with
  | code | hi | lo | hiLo | divZero | jump => cases h; exact ⟨rfl, rfl, rfl⟩
  | write rd v => cases h; exact ⟨s.setReg_mem rd v, s.setReg_memCapacity rd v, rfl⟩
  | link => cases h; exact ⟨s.setReg_mem 31#5 s.pc, s.setReg_memCapacity 31#5 s.pc, rfl⟩

theorem step_keeps_memory {s t : State} (h : step s = .next t) :
    t.mem = s.mem ∧ t.memCapacity = s.memCapacity ∧ t.result.isSome = true := by
  obtain ⟨i, -, -, hexec⟩ := step_eq_next h
  obtain ⟨o, ho, hs⟩ := exec_ending_self i s.advance
  exact ho.keeps_memory (s := s.advance) (hs.symm.trans hexec)

/-- The invariant speaks of memory and the capacity only. -/
theorem State.Inv.congr {s t : State} (hs : s.Inv) (hm : t.mem = s.mem) (hk : t.memCapacity = s.memCapacity) :
    t.Inv := by
  unfold State.Inv
  rwa [hm, hk]

/-- The word at `pc` decides what the step runs, whoever wrote it (R42, R71). -/
theorem step_of_readWord {s : State} {w : Word} {i : Instr} (h : s.pc.toNat + 4 ≤ s.memCapacity)
    (hw : s.mem.readWord s.pc.toNat = w) (hi : decodeWord w = some i) : step s = exec i s.advance := by
  simp only [step_eq, if_pos h, hw, hi]

/-! ### The obligations -/

/-- Settles O43: the invariant reads memory and the capacity only, and a step keeps both. -/
theorem stepKeepsInvariant : Obligations.StepKeepsInvariant := by
  intro s t hs h
  obtain ⟨hm, hk, hr⟩ := step_keeps_memory h
  exact ⟨hs.congr hm hk, hk, t.reg_zero, hr⟩

/-- Settles O35: no ending touches memory, and a load reads memory and the capacity only. -/
theorem stepKeepsMemory : Obligations.StepKeepsMemory := by
  intro s t h
  obtain ⟨hm, hk, -⟩ := step_keeps_memory h
  exact ⟨hm, hk, fun addr => by simp only [loadByte_eq, hm, hk]⟩

/-- Settles O49, from what a read finds after a write. -/
theorem storeWritesExactly : Obligations.StoreWritesExactly :=
  fun _ addr v b hwf =>
    ⟨fun h => ⟨_, perform_storeWord h v, fun a => Memory.read_writeWord_cases hwf addr.toNat a v⟩,
      fun h => ⟨_, perform_storeByte h b, fun a => Memory.read_write hwf addr.toNat a b⟩⟩

/-- Settles O50; the word clause is the composition said as a sum. -/
theorem loadReads : Obligations.LoadReads := by
  refine fun s addr => ⟨perform_loadByte, fun h => ?_⟩
  rw [perform_loadWord h, Memory.readWord, wordOfBytes_eq_ofNat]

/-- Settles O51: four byte stores leave the memory that the word store leaves. -/
theorem storeThenLoadWord : Obligations.StoreThenLoadWord := by
  intro s addr v hs h
  have hload : State.perform { s with mem := s.mem.writeWord addr.toNat v } (.loadWord addr) =
      (.word v, { s with mem := s.mem.writeWord addr.toNat v }) := by
    obtain ⟨-, hwf, -⟩ := hs
    simp only [perform_loadWord, h, Memory.readWord_writeWord hwf]
  constructor
  · simp only [performAll_cons, performAll_nil, perform_storeWord h, hload]
  · simp only [performAll_storeBytes hs h, performAll_cons, performAll_nil, hload]

/-- Settles O52: each accessor tests the range before it reads or writes. -/
theorem outOfRangeAccess : Obligations.OutOfRangeAccess := by
  refine fun s addr v b => ⟨fun h => ?_, fun h => ?_⟩
  · simp only [State.perform, loadByte_eq, storeByte_eq, if_neg (Nat.not_le.2 h), replyStored_error, and_self]
  · simp only [State.perform, loadWord_eq, storeWord_eq, if_neg (Nat.not_le.2 h), replyStored_error, and_self]

/-- Settles O55: the next fetch reads the stored word back. -/
theorem fetchSeesStore : Obligations.FetchSeesStore :=
  fun s w _ hwf h hi =>
    ⟨_, perform_storeWord h w, rfl, rfl, step_of_readWord h (Memory.readWord_writeWord hwf s.pc.toNat w) hi⟩

end Sys2Proof.Machine

/-! SUPPORT. The family of 30_encoding.md: when a word is an instruction at all, which words stand for one instruction,
and which row of the opcode table a word can match. -/

namespace Sys2Proof.Machine

/-! ### When a word is an instruction -/

/-- Selection answers exactly on the well-formed fields (R57, R58, R61). -/
theorem selectInstr_isSome (x : Fields) : (selectInstr x).isSome = x.wellFormed := by
  cases x with
  | r rs rt rd shamt funct =>
    have hlt := funct.isLt
    simp only [selectInstr, selectR, Fields.wellFormed]
    generalize funct.toNat = n at hlt
    interval_cases n <;> rfl
  | i opcode rs rt imm =>
    have hlt := opcode.isLt
    simp only [selectInstr, selectI, Fields.wellFormed]
    generalize opcode.toNat = n at hlt
    interval_cases n <;> rfl

theorem decodeWord_eq_none_iff (w : Word) : decodeWord w = none ↔
    if opcodeOf w = 0#6 then (functOf w).toNat ∉ supportedFuncts
    else ¬ (8 ≤ (opcodeOf w).toNat ∧ (opcodeOf w).toNat ≤ 15) := by
  rw [← Option.not_isSome_iff_eq_none, decodeWord, selectInstr_isSome, fieldsOf]
  split <;> simp [Fields.wellFormed]

/-- R58 and the gaps of R61 share out the 64 function codes. -/
theorem notMem_supportedFuncts_iff : ∀ n < 64, n ∉ supportedFuncts ↔
    n ∈ [1, 5, 12, 14, 15, 20, 21, 22, 23, 28, 29, 30, 31, 40, 41, 44, 45, 46, 47, 53, 55, 56, 57, 58, 59, 60, 61,
      62, 63] := by
  decide

/-! ### Fields under a mask -/

section
variable (v w : Word)

@[simp] theorem opcodeOf_and : opcodeOf (v &&& w) = opcodeOf v &&& opcodeOf w := BitVec.extractLsb'_and
@[simp] theorem rsOf_and : rsOf (v &&& w) = rsOf v &&& rsOf w := BitVec.extractLsb'_and
@[simp] theorem rtOf_and : rtOf (v &&& w) = rtOf v &&& rtOf w := BitVec.extractLsb'_and
@[simp] theorem rdOf_and : rdOf (v &&& w) = rdOf v &&& rdOf w := BitVec.extractLsb'_and
@[simp] theorem shamtOf_and : shamtOf (v &&& w) = shamtOf v &&& shamtOf w := BitVec.extractLsb'_and
@[simp] theorem functOf_and : functOf (v &&& w) = functOf v &&& functOf w := BitVec.extractLsb'_and

end

/-- A five-bit field that a mask keeps whole. -/
theorem and_allOnes_five (r : BitVec 5) : r &&& 31#5 = r := BitVec.and_allOnes

/-- A six-bit field that a mask keeps whole. -/
theorem and_allOnes_six (f : Six) : f &&& 63#6 = f := BitVec.and_allOnes

/-- An R-type word under a mask is a given R-type word exactly when each field is, under the mask's bits there. -/
theorem packR_and_eq_packR_iff {rs rt rd rs' rt' rd' : RegIdx} {shamt shamt' : Shamt} {funct funct' : Six} (u : Word) :
    packR rs rt rd shamt funct &&& u = packR rs' rt' rd' shamt' funct' ↔
      rs &&& rsOf u = rs' ∧ rt &&& rtOf u = rt' ∧ rd &&& rdOf u = rd' ∧ shamt &&& shamtOf u = shamt' ∧
        funct &&& functOf u = funct' := by
  constructor
  · intro h
    exact ⟨by simpa using congrArg rsOf h, by simpa using congrArg rtOf h, by simpa using congrArg rdOf h,
      by simpa using congrArg shamtOf h, by simpa using congrArg functOf h⟩
  · rintro ⟨rfl, rfl, rfl, rfl, rfl⟩
    have hop : opcodeOf (packR rs rt rd shamt funct &&& u) = 0#6 := by simp
    simpa using (packR_fields hop).symm

/-! ### The words that stand for one instruction (R54, R65) -/

theorem decodeWord_encode (i : Instr) : decodeWord (encode i) = some i := by
  cases i with
  | addi | addiu | slti | sltiu | andi | ori | xori | lui => exact decodeWord_packI (by decide) ..
  | _ => exact decodeWord_packR ..

section
variable {w : Word} {i : Instr}

/-- Each function code selects an instruction that uses the fields its `usedBits` keep. -/
theorem encode_of_selectR {rs rt rd : RegIdx} {shamt : Shamt} {funct : Six}
    (h : selectR rs rt rd shamt funct = some i) : packR rs rt rd shamt funct &&& usedBits i = encode i := by
  unfold selectR at h
  split at h
  case h_36 => cases h
  all_goals
    cases h
    simp [encode, usedBits, packR_and_eq_packR_iff, rsOf, rtOf, rdOf, shamtOf, functOf, and_allOnes_five,
      and_allOnes_six, BitVec.toNat_eq (x := funct), *]

/-- Each opcode selects an instruction that uses its whole word. -/
theorem encode_of_selectI {opcode : Six} {rs rt : RegIdx} {imm : Half} (h : selectI opcode rs rt imm = some i) :
    packI opcode rs rt imm &&& usedBits i = encode i := by
  unfold selectI at h
  split at h
  case h_9 => cases h
  all_goals
    cases h
    refine BitVec.and_allOnes.trans (congrArg (packI · rs rt imm) (BitVec.eq_of_toNat_eq ?_))
    assumption

theorem encode_of_decodeWord (h : decodeWord w = some i) : w &&& usedBits i = encode i := by
  by_cases hop : opcodeOf w = 0#6
  · rw [decodeWord_of_opcode_zero hop] at h
    rw [← encode_of_selectR h, packR_fields hop]
  · rw [decodeWord_of_opcode_ne_zero hop] at h
    rw [← encode_of_selectI h, packI_fields]

theorem opcodeOf_usedBits (i : Instr) : opcodeOf (usedBits i) = 63#6 := by
  cases i <;> simp [opcodeOf, usedBits]

theorem opcodeOf_eq_of_encode (h : w &&& usedBits i = encode i) : opcodeOf w = opcodeOf (encode i) := by
  rw [← h, opcodeOf_and, opcodeOf_usedBits, and_allOnes_six]

/-- The used bits fix the opcode, the function code of an R-type instruction and the operands. -/
theorem decodeWord_of_encode (h : w &&& usedBits i = encode i) : decodeWord w = some i := by
  cases i with
  | addi | addiu | slti | sltiu | andi | ori | xori | lui =>
    have hw : w = encode _ := BitVec.and_allOnes.symm.trans h
    rw [hw, decodeWord_encode]
  | _ =>
    have hop : opcodeOf w = 0#6 := (opcodeOf_eq_of_encode h).trans (opcodeOf_packR ..)
    rw [← packR_fields hop] at h
    simp [encode, usedBits, packR_and_eq_packR_iff, rsOf, rtOf, rdOf, shamtOf, functOf, and_allOnes_five,
      and_allOnes_six] at h
    simp [decodeWord_of_opcode_zero hop, selectR, rsOf, rtOf, rdOf, shamtOf, functOf, h]

/-- A word stands for an instruction exactly when its used bits are the encoder's. -/
theorem decodeWord_eq_some_iff : decodeWord w = some i ↔ w &&& usedBits i = encode i :=
  ⟨encode_of_decodeWord, decodeWord_of_encode⟩

/-- The used bits include those that the row's mask tests. -/
theorem usedBits_and_tableMask (i : Instr) : usedBits i &&& tableMask i = tableMask i := by
  cases i <;> simp only [usedBits, tableMask] <;> decide

theorem encode_and_tableMask (i : Instr) : encode i &&& tableMask i = tableMatch i := by
  cases i with
  | addi | addiu | slti | sltiu | andi | ori | xori | lui => exact Laws.EncodedPattern.of_packI ..
  | _ => exact Laws.EncodedPattern.of_packR ..

/-- A decoded word has its instruction's row of the table (R59). -/
theorem and_tableMask_of_decodeWord (h : decodeWord w = some i) : w &&& tableMask i = tableMatch i := by
  rw [← encode_and_tableMask, ← encode_of_decodeWord h, BitVec.and_assoc, usedBits_and_tableMask]

end

/-! ### The row a word can match (R59) -/

/-- The only pair of a mask and a match in the table's two forms that a word can match. -/
def wordRow (w : Word) : Word × Word :=
  if opcodeOf w = 0#6 then (0xFC00003F, (functOf w).zeroExtend 32) else (0xFC000000, packI (opcodeOf w) 0 0 0)

section
variable {v w : Word} {row : Word × Word}

theorem and_wordRow (w : Word) : w &&& (wordRow w).1 = (wordRow w).2 := by
  unfold wordRow
  split
  · exact (and_maskR_eq_iff w _).2 ⟨‹_›, rfl⟩
  · exact (and_maskI_eq_iff w _).2 rfl

theorem wordRow_eq_of_match (h : w &&& (wordRow v).1 = (wordRow v).2) : wordRow w = wordRow v := by
  unfold wordRow at h ⊢
  split at h
  next hv =>
    obtain ⟨hop, hf⟩ := (and_maskR_eq_iff w _).1 h
    simp [hv, hop, hf]
  next hv =>
    have hop := (and_maskI_eq_iff w _).1 h
    simp [hv, hop]

/-- The masks of R59 are the table's: each row is the row of its own match value. -/
theorem wordRow_of_mem_opcodeTable : ∀ row ∈ opcodeTable, wordRow row.2 = row :=
  List.map_inj_left.1 (by decide : opcodeTable.map (fun row => wordRow row.2) = opcodeTable.map id)

/-- A word matches at most one row of the table. -/
theorem eq_wordRow_of_match (hmem : row ∈ opcodeTable) (h : w &&& row.1 = row.2) : row = wordRow w := by
  have hrow := wordRow_of_mem_opcodeTable row hmem
  rw [← hrow] at h
  rw [wordRow_eq_of_match h, hrow]

theorem functRow_mem_opcodeTable_iff : ∀ funct : Six,
    ((0xFC00003F : Word), funct.zeroExtend 32) ∈ opcodeTable ↔ funct.toNat ∈ supportedFuncts := by
  decide

theorem opcodeRow_mem_opcodeTable_iff : ∀ opcode : Six,
    ((0xFC000000 : Word), packI opcode 0 0 0) ∈ opcodeTable ↔ 8 ≤ opcode.toNat ∧ opcode.toNat ≤ 15 := by
  decide

theorem decodeWord_eq_none_iff_wordRow : decodeWord w = none ↔ wordRow w ∉ opcodeTable := by
  rw [decodeWord_eq_none_iff, wordRow]
  split
  · rw [functRow_mem_opcodeTable_iff]
  · rw [opcodeRow_mem_opcodeTable_iff]

/-- The match value of a row is itself a word of the row's instruction. -/
theorem decodeWord_match_of_mem_opcodeTable : ∀ row ∈ opcodeTable,
    (decodeWord row.2).map (fun i => (tableMask i, tableMatch i)) = some row :=
  List.map_inj_left.1 (by decide : opcodeTable.map (fun row =>
    (decodeWord row.2).map fun i => (tableMask i, tableMatch i)) = opcodeTable.map some)

theorem opcodeTable_nodup : opcodeTable.Nodup := by
  decide

end

/-! ### The obligations -/

/-- Settles O40: the fields of a packed word are those packed, and its bytes compose to it. -/
theorem decodeEncode : Obligations.DecodeEncode := by
  intro i rest
  have h := decodeWord_encode i
  exact ⟨h, by rw [decode_bytesOfWord, h]⟩

/-- Settles O38: the lists of R61 are what R57 and R58 leave out. -/
theorem invalidEncodings : Obligations.InvalidEncodings := by
  intro w
  have hz : opcodeOf w = 0#6 ↔ (opcodeOf w).toNat = 0 := BitVec.toNat_inj.symm
  change _ ↔ ((opcodeOf w).toNat = 0 ∧ (functOf w).toNat ∈ _) ∨
    (1 ≤ (opcodeOf w).toNat ∧ (opcodeOf w).toNat ≤ 7) ∨ 16 ≤ (opcodeOf w).toNat
  rw [decodeWord_eq_none_iff, ← notMem_supportedFuncts_iff _ (functOf w).isLt]
  split
  next hop => simp [hop]
  next hop =>
    have hne := mt hz.2 hop
    omega

/-- Settles O39: a word matches the row of its instruction and no row but `wordRow`. -/
theorem decoderFollowsTable : Obligations.DecoderFollowsTable := by
  refine ⟨rfl, fun _ _ => and_tableMask_of_decodeWord, fun w => ?_, ?_, fun row hrow => ?_⟩
  · rw [decodeWord_eq_none_iff_wordRow]
    exact ⟨fun h row hrow hm => h (eq_wordRow_of_match hrow hm ▸ hrow), fun h hmem => h _ hmem (and_wordRow w)⟩
  · exact opcodeTable_nodup.imp_of_mem fun hp hq hne w ⟨hmp, hmq⟩ =>
      hne ((eq_wordRow_of_match hp hmp).trans (eq_wordRow_of_match hq hmq).symm)
  · obtain ⟨i, hi, heq⟩ := Option.map_eq_some_iff.1 (decodeWord_match_of_mem_opcodeTable row hrow)
    exact ⟨row.2, i, hi, heq.symm⟩

/-- Settles O41: both clauses are `decodeWord_eq_some_iff`. -/
theorem ignoredFields : Obligations.IgnoredFields := by
  intro w i h
  rw [decodeWord_eq_some_iff] at h
  exact ⟨h.symm, fun w' hw' => decodeWord_eq_some_iff.2 (hw'.trans h)⟩

/-- Settles O42: the encoder gives each word, and the decoder reads it back. -/
theorem workedEncodings : Obligations.WorkedEncodings := by
  intro p hp
  have henc : encode p.2 = p.1 := by
    revert p
    decide
  exact ⟨henc ▸ decodeWord_encode p.2, henc⟩

end Sys2Proof.Machine

/-! SUPPORT. The family of 40_step_cycle.md: the result code each instruction gives, the state it runs in, and the
three outcomes of a step. -/

namespace Sys2Proof.Machine

/-! ### The result code -/

/-- Only a trap or a `break` gives a code other than 0 (R75). -/
theorem exec_code_zero {i : Instr} (ht : canTrap i = false) (hb : isBreak i = false) (s : State) :
    ∃ t, exec i s = .next t ∧ t.result = some 0#32 := by
  obtain ⟨o, ho, hs⟩ := exec_ending_self i s
  rw [hs]
  cases ho with
  | code c h =>
    have hc : c = 0#32 := by simpa [ht, hb] using h
    exact ⟨_, rfl, congrArg some hc⟩
  | write | hi | lo | hiLo | divZero | jump | link => exact ⟨_, rfl, rfl⟩

theorem trapIf_code {c : Bool} {p : Prop} [Decidable p] (h : c = true ↔ p) (s : State) :
    ∃ t, trapIf c s = .next t ∧ t.result = some (if p then 1#32 else 0#32) := by
  rw [trapIf_eq]
  exact ⟨_, rfl, congrArg some (if_congr h rfl rfl)⟩

theorem trappingWrite_code (rd : RegIdx) (n : Int) (s : State) :
    ∃ t, trappingWrite rd n s = .next t ∧
      t.result = some (if n < -2147483648 ∨ 2147483647 < n then 1#32 else 0#32) := by
  rw [trappingWrite_eq]
  split
  next hfit => exact ⟨_, rfl, by rw [if_neg (by omega)]; rfl⟩
  next hfit => exact ⟨_, rfl, by rw [if_pos (by omega)]; rfl⟩

/-- The fields `rs` and `shamt` do not overlap in the payload (R103), so their OR is a sum. -/
theorem breakPayload_eq (rs rt rd : RegIdx) (shamt : Shamt) :
    breakPayload rs rt rd shamt = BitVec.ofNat 32 (rs.toNat * 65536 + shamt.toNat) ||| breakMid rt rd := by
  have hrs := rs.isLt
  have hshamt := shamt.isLt
  have hor : rs.toNat * 65536 + shamt.toNat = rs.toNat <<< 16 ||| shamt.toNat := by
    rw [← Nat.shiftLeft_add_eq_or_of_lt (by omega), Nat.shiftLeft_eq]
  rw [breakPayload, hor]
  refine congrArg (· ||| breakMid rt rd) (BitVec.eq_of_toNat_eq ?_)
  simp (disch := omega) [Nat.mod_eq_of_lt]

/-! ### The obligations -/

/-- Settles O30: the trapping instructions by their conditions, `break` by its payload, the others by
`exec_code_zero`. -/
theorem resultCodes : Obligations.ResultCodes := by
  intro i s
  cases i with
  | add rd | sub rd | addi rd => exact trappingWrite_code rd _ s
  | tge => exact trapIf_code (by simp [← Bool.not_eq_true, lessSigned_iff]) s
  | tgeu => exact trapIf_code (by simp [← Bool.not_eq_true, lessUnsigned_iff]) s
  | tlt => exact trapIf_code (lessSigned_iff ..) s
  | tltu => exact trapIf_code (lessUnsigned_iff ..) s
  | teq => exact trapIf_code beq_iff_eq s
  | tne rs rt =>
    have hne : (s.reg rs != s.reg rt) = true ↔ ¬ s.reg rs = s.reg rt := bne_iff_ne
    have hcode := trapIf_code hne s
    rw [ite_not] at hcode
    exact hcode
  | brk rs rt rd shamt => exact ⟨_, rfl, congrArg some (breakPayload_eq rs rt rd shamt)⟩
  | _ => exact exec_code_zero rfl rfl s

/-- Settles O37: the order of the tests is that of `step_eq`, and every instruction completes. -/
theorem stepOutcomes : Obligations.StepOutcomes := by
  intro s
  split
  next hrange => rw [step_eq, if_neg (Nat.not_le.2 hrange)]
  next hrange =>
    have hin : s.pc.toNat + 4 ≤ s.memCapacity := Nat.not_lt.1 hrange
    split
    next hnone => simp only [step_eq, if_pos hin, hnone]
    next hsome =>
      obtain ⟨i, hi⟩ := Option.ne_none_iff_exists'.1 hsome
      obtain ⟨t, ht, hcode⟩ := resultCodes i s.advance
      exact ⟨t, _, (step_of_readWord hin rfl hi).trans ht, hcode⟩

/-- Settles O36: the four bytes compose to the word that the fetch reads. -/
theorem stepRunsDecodedInstruction : Obligations.StepRunsDecodedInstruction :=
  fun _ _ hrange hdecode => step_of_readWord hrange rfl hdecode

end Sys2Proof.Machine

/-! SUPPORT. The family of 41_shifts.md: the three operators as arithmetic and bit by bit, and the rows of the R-type
instructions. -/

namespace Sys2Proof.Machine

/-! ### The words of an R-type row -/

/-- A word has an R-type row's pattern exactly when it decodes to the instruction that the row's function code selects
on the word's fields (R57, R59). -/
theorem selects_of_selectR {pattern : Word} {f : Word → Instr} (funct : Six) (hp : funct.zeroExtend 32 = pattern)
    (hf : ∀ w, selectR (rsOf w) (rtOf w) (rdOf w) (shamtOf w) funct = some (f w))
    (hmask : ∀ w, tableMask (f w) = 0xFC00003F) (hmatch : ∀ w, tableMatch (f w) = pattern) :
    Selects 0xFC00003F pattern f := by
  refine fun w => ⟨fun h => ?_, fun h => ?_⟩
  · obtain ⟨hop, hfunct⟩ := (and_maskR_eq_iff w funct).1 (h.trans hp.symm)
    rw [decodeWord_of_opcode_zero hop, hfunct, hf]
  · rw [← hmask w, ← hmatch w]
    exact and_tableMask_of_decodeWord h

/-! ### The shift operators (R85) -/

section
variable (v : Word) (n : Nat)

theorem shiftLeft_eq_ofNat : v <<< n = BitVec.ofNat 32 (v.toNat * 2 ^ n) :=
  BitVec.eq_of_toNat_eq (by simp [Nat.shiftLeft_eq])

theorem ushiftRight_eq_ofNat : v >>> n = BitVec.ofNat 32 (v.toNat / 2 ^ n) := by
  rw [← Nat.shiftRight_eq_div_pow, ← BitVec.toNat_ushiftRight, BitVec.ofNat_toNat, BitVec.setWidth_eq]

theorem sshiftRight_eq_ofInt : v.sshiftRight n = BitVec.ofInt 32 (v.toInt / 2 ^ n) := by
  rw [BitVec.sshiftRight, Int.shiftRight_eq_div_pow]
  norm_cast

theorem getLsbD_shiftLeft_eq_ite {i : Nat} (hi : i < 32) :
    (v <<< n).getLsbD i = if n ≤ i then v.getLsbD (i - n) else false := by
  rw [BitVec.getLsbD_shiftLeft]
  split
  next h => simp [hi, Nat.not_lt.2 h]
  next h => simp [Nat.not_le.1 h]

theorem getLsbD_ushiftRight_eq_ite (i : Nat) :
    (v >>> n).getLsbD i = if i + n ≤ 31 then v.getLsbD (i + n) else false := by
  rw [BitVec.getLsbD_ushiftRight, Nat.add_comm]
  split
  · rfl
  · exact BitVec.getLsbD_of_ge v _ (by omega)

theorem getLsbD_sshiftRight_eq_ite {i : Nat} (hi : i < 32) :
    (v.sshiftRight n).getLsbD i = if i + n ≤ 31 then v.getLsbD (i + n) else v.getLsbD 31 := by
  rw [BitVec.getLsbD_sshiftRight, BitVec.msb_eq_getLsbD_last, Nat.add_comm, decide_eq_false (Nat.not_le.2 hi)]
  simp only [Bool.not_false, Bool.true_and, Nat.lt_succ_iff]

end

/-- The low five bits of a register are its value modulo 32 (R89). -/
theorem amountOfValue_eq (v : Word) : amountOfValue v = v.toNat % 32 := by
  simp [amountOfValue]

/-! ### The three ways a shift ends -/

section
variable (rd : RegIdx) (v : Word) (n : Nat) (s : State)

theorem completes_shiftLeft : Completes (writeBack rd (v <<< n) s) s
    { After.same s with regs := written s rd (BitVec.ofNat 32 (v.toNat * 2 ^ n)) } :=
  shiftLeft_eq_ofNat v n ▸ completes_writeBack rd _ s

theorem completes_ushiftRight : Completes (writeBack rd (v >>> n) s) s
    { After.same s with regs := written s rd (BitVec.ofNat 32 (v.toNat / 2 ^ n)) } :=
  ushiftRight_eq_ofNat v n ▸ completes_writeBack rd _ s

theorem completes_sshiftRight : Completes (writeBack rd (v.sshiftRight n) s) s
    { After.same s with regs := written s rd (BitVec.ofInt 32 (v.toInt / 2 ^ n)) } :=
  sshiftRight_eq_ofInt v n ▸ completes_writeBack rd _ s

end

/-! ### The obligations -/

/-- Settles O2: each is its operator written back, and its row selects it. -/
theorem shiftImmediate : Obligations.ShiftImmediate := by
  refine ⟨fun rd rt shamt s => ⟨?_, ?_, ?_⟩, ?_, ?_, ?_⟩
  · exact completes_shiftLeft rd (s.reg rt) shamt.toNat s
  · exact completes_ushiftRight rd (s.reg rt) shamt.toNat s
  · exact completes_sshiftRight rd (s.reg rt) shamt.toNat s
  · exact selects_of_selectR 0 rfl (fun _ => rfl) (fun _ => rfl) (fun _ => rfl)
  · exact selects_of_selectR 2 rfl (fun _ => rfl) (fun _ => rfl) (fun _ => rfl)
  · exact selects_of_selectR 3 rfl (fun _ => rfl) (fun _ => rfl) (fun _ => rfl)

/-- Settles O3: as O2, with the amount from the low five bits of `x[rs]`. -/
theorem shiftVariable : Obligations.ShiftVariable := by
  refine ⟨fun rd rt rs s => ?_, ?_, ?_, ?_⟩
  · rw [← amountOfValue_eq]
    exact ⟨completes_shiftLeft rd _ _ s, completes_ushiftRight rd _ _ s, completes_sshiftRight rd _ _ s⟩
  · exact selects_of_selectR 4 rfl (fun _ => rfl) (fun _ => rfl) (fun _ => rfl)
  · exact selects_of_selectR 6 rfl (fun _ => rfl) (fun _ => rfl) (fun _ => rfl)
  · exact selects_of_selectR 7 rfl (fun _ => rfl) (fun _ => rfl) (fun _ => rfl)

/-- Settles O4: the value each writes is its operator's, read bit by bit. -/
theorem shiftBitwise : Obligations.ShiftBitwise :=
  fun rd rt shamt s =>
    ⟨⟨_, completes_writeBack rd _ s, fun _ => getLsbD_shiftLeft_eq_ite (s.reg rt) shamt.toNat⟩,
      ⟨_, completes_writeBack rd _ s, fun i _ => getLsbD_ushiftRight_eq_ite (s.reg rt) shamt.toNat i⟩,
      ⟨_, completes_writeBack rd _ s, fun _ => getLsbD_sshiftRight_eq_ite (s.reg rt) shamt.toNat⟩⟩

end Sys2Proof.Machine

/-! SUPPORT. The family of 42_jumps.md: the link that `jalr` writes before it reads its target, and `pc` after every
other instruction. -/

namespace Sys2Proof.Machine

/-! ### The two jumps -/

/-- The target is read after the link write, so `x[31]` reads the link (R95, D13). -/
theorem reg_linked (rs : RegIdx) (s : State) : (linked s).reg rs = if rs = 31#5 then s.pc else s.reg rs := by
  have hlink : (31#5 : RegIdx) ≠ 0#5 := by decide
  exact (s.reg_setReg 31#5 rs s.pc).trans (if_congr (and_iff_left hlink) rfl rfl)

theorem completes_execJr (rs : RegIdx) (s : State) :
    Completes (execJr rs s) s { After.same s with pc := s.reg rs } :=
  completes_complete rfl (fun _ => rfl) rfl rfl rfl rfl rfl rfl

theorem completes_execJalr (rs : RegIdx) (s : State) : Completes (execJalr rs s) s
    { After.same s with regs := written s 31#5 s.pc, pc := if rs = 31#5 then s.pc else s.reg rs } :=
  completes_complete rfl (s.reg_setReg_eq_written 31#5 s.pc) (s.setReg_hi 31#5 s.pc) (s.setReg_lo 31#5 s.pc)
    (reg_linked rs s) (s.setReg_draws 31#5 s.pc) (s.setReg_mem 31#5 s.pc) (s.setReg_memCapacity 31#5 s.pc)

/-! ### Instructions that are no jumps -/

/-- Only the register jumps replace `pc` (R97). -/
theorem Ending.pc_eq {i : Instr} {o : State → Host.Outcome State Fault Refusal} {s t : State} (ho : Ending i o)
    (hj : isJump i = false) (h : o s = .next t) : t.pc = s.pc := by
  cases ho with
  | code | hi | lo | hiLo | divZero => cases h; rfl
  | write rd v => cases h; exact s.setReg_pc rd v
  | jump a hjump => simp [hjump] at hj
  | link rs hi => subst hi; cases hj

theorem exec_pc_eq {i : Instr} {s t : State} (hj : isJump i = false) (h : exec i s = .next t) : t.pc = s.pc := by
  obtain ⟨o, ho, hs⟩ := exec_ending_self i s
  exact ho.pc_eq hj (hs ▸ h)

/-! ### The obligations -/

/-- Settles O5: `jr` replaces `pc` and nothing else, and its row selects it. -/
theorem jumpRegister : Obligations.JumpRegister :=
  ⟨completes_execJr, selects_of_selectR 8 rfl (fun _ => rfl) (fun _ => rfl) (fun _ => rfl)⟩

/-- Settles O6: the target is read from the linked registers, and the row of `jalr` selects it. -/
theorem jumpAndLink : Obligations.JumpAndLink :=
  ⟨completes_execJalr, selects_of_selectR 9 rfl (fun _ => rfl) (fun _ => rfl) (fun _ => rfl)⟩

/-- Settles O32: the step runs the word's instruction in the advanced state, whose `pc` it keeps. -/
theorem sequentialFlow : Obligations.SequentialFlow := by
  intro i s t hdecode hj h
  obtain ⟨i', -, hdecode', hexec⟩ := step_eq_next h
  obtain rfl : i = i' := Option.some.inj (hdecode.symm.trans hdecode')
  exact exec_pc_eq hj hexec

end Sys2Proof.Machine

/-! SUPPORT. The family of 43_cond_move.md: a register write under a condition that is tested before it. -/

namespace Sys2Proof.Machine

/-! ### The two conditional moves -/

/-- A write-back under a condition, with code 0 either way: the condition decides the registers and nothing else. -/
theorem completes_writeBack_ite (p : Prop) [Decidable p] (rd : RegIdx) (v : Word) (s : State) :
    Completes (if p then writeBack rd v s else complete 0#32 s) s
      { After.same s with regs := if p then written s rd v else s.reg } := by
  split
  · exact completes_writeBack rd v s
  · exact completes_complete_same s 0#32

/-- R99, with the test on all 32 bits of `x[rt]` said of the number they stand for (R98). -/
theorem completes_execMovz (rd rs rt : RegIdx) (s : State) : Completes (execMovz rd rs rt s) s
    { After.same s with regs := if (s.reg rt).toNat = 0 then written s rd (s.reg rs) else s.reg } := by
  have hzero : (s.reg rt).toNat = 0 ↔ s.reg rt = 0#32 := BitVec.toNat_inj (y := 0#32)
  simp only [hzero]
  exact completes_writeBack_ite _ rd (s.reg rs) s

/-- R100, as R99 with the condition negated. -/
theorem completes_execMovn (rd rs rt : RegIdx) (s : State) : Completes (execMovn rd rs rt s) s
    { After.same s with regs := if (s.reg rt).toNat = 0 then s.reg else written s rd (s.reg rs) } := by
  have hnonzero : s.reg rt ≠ 0#32 ↔ ¬ (s.reg rt).toNat = 0 := not_congr (BitVec.toNat_inj (y := 0#32)).symm
  rw [← ite_not]
  simp only [← hnonzero]
  exact completes_writeBack_ite _ rd (s.reg rs) s

/-! ### The obligations -/

/-- Settles O7: each move is a write-back under its condition, and its row selects it. -/
theorem conditionalMove : Obligations.ConditionalMove :=
  ⟨fun rd rs rt s => ⟨completes_execMovz rd rs rt s, completes_execMovn rd rs rt s⟩,
    selects_of_selectR 10 rfl (fun _ => rfl) (fun _ => rfl) (fun _ => rfl),
    selects_of_selectR 11 rfl (fun _ => rfl) (fun _ => rfl) (fun _ => rfl)⟩

end Sys2Proof.Machine

/-! SUPPORT. The family of 44_break.md: the payload of `break` as a result code, and its frame. -/

namespace Sys2Proof.Machine

/-- `BREAK_MID` at the fields R104 fixes it on; elsewhere it stays uninterpreted (log 13). -/
theorem breakMid_zero_zero : breakMid 0#5 0#5 = 0#32 := if_pos ⟨rfl, rfl⟩

/-- R103: `break` completes with its payload as the code, and keeps everything else. -/
theorem completes_execBrk (rs rt rd : RegIdx) (shamt : Shamt) (s : State) : Completes (execBrk rs rt rd shamt s) s
    { After.same s with code := BitVec.ofNat 32 (rs.toNat * 65536 + shamt.toNat) ||| breakMid rt rd } :=
  breakPayload_eq rs rt rd shamt ▸ completes_complete_same s (breakPayload rs rt rd shamt)

/-! ### The obligation -/

/-- Settles O8: `break` completes with the payload and the same frame for every `BREAK_MID`, and its row selects it. The
name `breakPayload` itself is the model's. -/
theorem breakPayload_holds : Obligations.BreakPayload :=
  ⟨breakMid_zero_zero, completes_execBrk, selects_of_selectR 13 rfl (fun _ => rfl) (fun _ => rfl) (fun _ => rfl)⟩

end Sys2Proof.Machine

/-! SUPPORT. The family of 45_hilo_muldiv.md: the halves of a product, the quotients and remainders as the library's
division of words, and which instructions write `HI` and `LO`. -/

namespace Sys2Proof.Machine

/-! ### The moves (R107 to R110) -/

theorem completes_setHi (v : Word) (s : State) : Completes (complete 0#32 (s.setHi v)) s
    { After.same s with hi := v } :=
  completes_complete rfl (fun _ => rfl) rfl rfl rfl rfl rfl rfl

theorem completes_setLo (v : Word) (s : State) : Completes (complete 0#32 (s.setLo v)) s
    { After.same s with lo := v } :=
  completes_complete rfl (fun _ => rfl) rfl rfl rfl rfl rfl rfl

/-! ### The halves of a product (R106, R111, R112) -/

theorem completes_writeProduct (p : BitVec 64) (s : State) : Completes (writeProduct p s) s
    { After.same s with hi := p.extractLsb' 32 32, lo := p.extractLsb' 0 32 } :=
  completes_writeHiLo _ _ s

theorem halves_append (p : BitVec 64) : p.extractLsb' 32 32 ++ p.extractLsb' 0 32 = p :=
  BitVec.extractLsb'_append_extractLsb' (w := 32)

theorem toNat_halves (p : BitVec 64) :
    (p.extractLsb' 32 32).toNat * 4294967296 + (p.extractLsb' 0 32).toNat = p.toNat := by
  have h := congrArg BitVec.toNat (halves_append p)
  rwa [BitVec.toNat_append, ← Nat.shiftLeft_add_eq_or_of_lt (BitVec.isLt _), Nat.shiftLeft_eq] at h

/-- The upper half carries the sign. -/
theorem toInt_halves (p : BitVec 64) :
    (p.extractLsb' 32 32).toInt * 4294967296 + ((p.extractLsb' 0 32).toNat : Int) = p.toInt := by
  have h := congrArg BitVec.toInt (halves_append p)
  rwa [BitVec.toInt_append, if_neg (by decide), Int.mul_comm] at h

theorem extractLsb'_low_ofInt (n : Int) : (BitVec.ofInt 64 n).extractLsb' 0 32 = BitVec.ofInt 32 n := by
  apply BitVec.eq_of_toNat_eq
  rw [BitVec.extractLsb'_toNat, BitVec.toNat_ofInt, BitVec.toNat_ofInt]
  omega

section
variable (a b : Word)

/-- The exact signed product fits 64 bits. -/
theorem toInt_ofInt_product : (BitVec.ofInt 64 (a.toInt * b.toInt)).toInt = a.toInt * b.toInt := by
  have hle := BitVec.toInt_mul_toInt_le (x := a) (y := b)
  have hge := BitVec.le_toInt_mul_toInt (x := a) (y := b)
  exact BitVec.toInt_ofInt_eq_self (by decide) (by omega) (by omega)

/-- The exact unsigned product fits 64 bits. -/
theorem toNat_ofNat_product : (BitVec.ofNat 64 (a.toNat * b.toNat)).toNat = a.toNat * b.toNat :=
  Nat.mod_eq_of_lt (BitVec.toNat_mul_toNat_lt (x := a) (y := b))

/-- The signed and the unsigned product agree modulo 2^32, so on `LO` (R112). -/
theorem low_products_agree : (BitVec.ofInt 64 (a.toInt * b.toInt)).extractLsb' 0 32 =
    (BitVec.ofNat 64 (a.toNat * b.toNat)).extractLsb' 0 32 := by
  have hsigned : (BitVec.ofInt 64 (a.toInt * b.toInt)).extractLsb' 0 32 = a * b := by
    rw [extractLsb'_low_ofInt, BitVec.ofInt_mul, BitVec.ofInt_toInt, BitVec.ofInt_toInt]
  have hunsigned : (BitVec.ofNat 64 (a.toNat * b.toNat)).extractLsb' 0 32 = a * b := by
    rw [← BitVec.setWidth_eq_extractLsb' (by decide), BitVec.setWidth_ofNat_of_le (by decide), BitVec.ofNat_mul,
      BitVec.ofNat_toNat, BitVec.ofNat_toNat, BitVec.setWidth_eq, BitVec.setWidth_eq]
  rw [hsigned, hunsigned]

end

/-! ### Quotient and remainder (R113, R114, R117) -/

section
variable (a b : Word)

theorem ofInt_tdiv_eq_sdiv : BitVec.ofInt 32 (a.toInt.tdiv b.toInt) = a.sdiv b := by
  apply BitVec.eq_of_toInt_eq
  rw [BitVec.toInt_ofInt, BitVec.toInt_sdiv]

theorem ofInt_tmod_eq_srem : BitVec.ofInt 32 (a.toInt.tmod b.toInt) = a.srem b := by
  rw [← BitVec.toInt_srem, BitVec.ofInt_toInt]

theorem ofNat_div_eq_udiv : BitVec.ofNat 32 (a.toNat / b.toNat) = a / b := by
  rw [← BitVec.toNat_udiv, BitVec.ofNat_toNat, BitVec.setWidth_eq]

theorem ofNat_mod_eq_umod : BitVec.ofNat 32 (a.toNat % b.toNat) = a % b := by
  rw [← BitVec.toNat_umod, BitVec.ofNat_toNat, BitVec.setWidth_eq]

end

/-- Truncation toward zero as R113 writes it: the quotient of the magnitudes under the product of the signs. -/
theorem tdiv_eq_sign_mul_natAbs_div (a b : Int) :
    a.tdiv b = a.sign * b.sign * ((a.natAbs / b.natAbs : Nat) : Int) := by
  have habs : (a.tdiv b).natAbs = a.natAbs / b.natAbs := Int.natAbs_tdiv a b
  rw [← Int.sign_mul_natAbs (a.tdiv b), habs, Int.sign_tdiv]
  split
  next hlt => simp [Nat.div_eq_of_lt hlt]
  next => rfl

theorem natAbs_tmod_lt (a : Int) {b : Int} (hb : b ≠ 0) : (a.tmod b).natAbs < b.natAbs := by
  rw [Int.natAbs_tmod]
  exact Nat.mod_lt _ (Int.natAbs_pos.2 hb)

theorem tmod_eq_zero_or_sign_eq (a b : Int) : a.tmod b = 0 ∨ (a.tmod b).sign = a.sign := by
  rw [← Int.sign_eq_zero_iff_zero, Int.sign_tmod]
  split
  · exact .inl rfl
  · exact .inr rfl

/-! ### The two divisions, by the divisor -/

section
variable (rs : RegIdx) {rt : RegIdx} {s : State}

theorem completes_execDiv_zero (h : s.reg rt = 0#32) : Completes (execDiv rs rt s) s
    { After.same s with hi := Config.div0Hi true (s.reg rs) s.draws, lo := Config.div0Lo true (s.reg rs) s.draws,
                        draws := s.draws + 1 } := by
  rw [execDiv, if_pos h]
  exact completes_divideByZero true (s.reg rs) s

theorem completes_execDivu_zero (h : s.reg rt = 0#32) : Completes (execDivu rs rt s) s
    { After.same s with hi := Config.div0Hi false (s.reg rs) s.draws, lo := Config.div0Lo false (s.reg rs) s.draws,
                        draws := s.draws + 1 } := by
  rw [execDivu, if_pos h]
  exact completes_divideByZero false (s.reg rs) s

theorem completes_execDiv (h : s.reg rt ≠ 0#32) : Completes (execDiv rs rt s) s
    { After.same s with hi := (s.reg rs).srem (s.reg rt), lo := (s.reg rs).sdiv (s.reg rt) } := by
  rw [execDiv, if_neg h, ofInt_tdiv_eq_sdiv, ofInt_tmod_eq_srem]
  exact completes_writeHiLo _ _ s

theorem completes_execDivu (h : s.reg rt ≠ 0#32) : Completes (execDivu rs rt s) s
    { After.same s with hi := s.reg rs % s.reg rt, lo := s.reg rs / s.reg rt } := by
  rw [execDivu, if_neg h, ofNat_div_eq_udiv, ofNat_mod_eq_umod]
  exact completes_writeHiLo _ _ s

end

/-! ### The writers of HI and LO (R118) -/

section
variable {i : Instr} {o : State → Host.Outcome State Fault Refusal} {s t : State}

theorem Ending.hi_eq (ho : Ending i o) (hi : writesHi i = false) (h : o s = .next t) : t.hi = s.hi := by
  cases ho with
  | code | lo | jump => cases h; rfl
  | write rd v => cases h; exact s.setReg_hi rd v
  | link => cases h; exact s.setReg_hi 31#5 s.pc
  | hi _ hw | hiLo _ _ hw | divZero _ _ hw => simp [hw] at hi

theorem Ending.lo_eq (ho : Ending i o) (hl : writesLo i = false) (h : o s = .next t) : t.lo = s.lo := by
  cases ho with
  | code | hi | jump => cases h; rfl
  | write rd v => cases h; exact s.setReg_lo rd v
  | link => cases h; exact s.setReg_lo 31#5 s.pc
  | lo _ hw | hiLo _ _ _ hw | divZero _ _ _ hw => simp [hw] at hl

end

/-! ### The obligations -/

/-- Settles O9: each move is a write of one register, and its row selects it. -/
theorem hiLoMoves : Obligations.HiLoMoves := by
  refine ⟨fun r s => ⟨?_, ?_, ?_, ?_⟩, ?_, ?_, ?_, ?_⟩
  · exact completes_writeBack r s.hi s
  · exact completes_setHi (s.reg r) s
  · exact completes_writeBack r s.lo s
  · exact completes_setLo (s.reg r) s
  · exact selects_of_selectR 16 rfl (fun _ => rfl) (fun _ => rfl) (fun _ => rfl)
  · exact selects_of_selectR 17 rfl (fun _ => rfl) (fun _ => rfl) (fun _ => rfl)
  · exact selects_of_selectR 18 rfl (fun _ => rfl) (fun _ => rfl) (fun _ => rfl)
  · exact selects_of_selectR 19 rfl (fun _ => rfl) (fun _ => rfl) (fun _ => rfl)

/-- Settles O10: the halves join to a product that fits 64 bits, and both products have the same low half. -/
theorem multiply : Obligations.Multiply := by
  refine ⟨fun rs rt s => ?_, ?_, ?_⟩
  · have hmultu := completes_writeProduct (BitVec.ofNat 64 ((s.reg rs).toNat * (s.reg rt).toNat)) s
    rw [← low_products_agree] at hmultu
    refine ⟨_, _, _, completes_writeProduct _ s, ?_, hmultu, ?_⟩
    · rw [toInt_halves, toInt_ofInt_product]
    · rw [low_products_agree, toNat_halves, toNat_ofNat_product]
  · exact selects_of_selectR 24 rfl (fun _ => rfl) (fun _ => rfl) (fun _ => rfl)
  · exact selects_of_selectR 25 rfl (fun _ => rfl) (fun _ => rfl) (fun _ => rfl)

/-- Settles O11: the truncated quotient is R113's, so the remainder is R113's. -/
theorem divideSigned : Obligations.DivideSigned := by
  refine ⟨fun rs rt s => ?_, selects_of_selectR 26 rfl (fun _ => rfl) (fun _ => rfl) (fun _ => rfl)⟩
  split
  next hzero => exact ⟨_, _, completes_execDiv_zero rs hzero⟩
  next hne =>
    refine ⟨_, _, _, _, rfl, rfl, rfl, rfl, ?_⟩
    rw [← tdiv_eq_sign_mul_natAbs_div, Int.mul_comm, ← Int.tmod_def, ofInt_tdiv_eq_sdiv, ofInt_tmod_eq_srem]
    exact completes_execDiv rs hne

/-- Settles O12: the division law of the naturals, read on words. -/
theorem divideUnsigned : Obligations.DivideUnsigned := by
  refine ⟨fun rs rt s => ?_, selects_of_selectR 27 rfl (fun _ => rfl) (fun _ => rfl) (fun _ => rfl)⟩
  split
  next hzero => exact ⟨_, _, completes_execDivu_zero rs hzero⟩
  next hne =>
    refine ⟨_, _, completes_execDivu rs hne, BitVec.toNat_udiv, ?_, ?_⟩
    · rw [BitVec.toNat_umod]
      exact Nat.mod_lt _ (BitVec.toNat_pos_of_ne_zero hne)
    · rw [BitVec.toNat_umod, BitVec.toNat_udiv, Nat.div_add_mod']

/-- Settles O15: apart from the one overflow the words read back as the exact quotient and remainder. -/
theorem divisionIdentity : Obligations.DivisionIdentity := by
  intro rs rt s t hne hover h
  have hb : (s.reg rt).toInt ≠ 0 := fun h0 => hne (BitVec.toInt_inj.1 (h0.trans BitVec.toInt_zero.symm))
  obtain ⟨u, hu, -, -, hhi, hlo, -⟩ := completes_execDiv rs hne
  cases hu.symm.trans h
  rw [hhi, hlo, BitVec.toInt_srem, BitVec.toInt_sdiv_of_ne_or_ne _ _ (not_and_or.1 hover)]
  exact ⟨(Int.tdiv_mul_add_tmod _ _).symm, natAbs_tmod_lt _ hb, tmod_eq_zero_or_sign_eq _ _⟩

/-- Settles O16: no other ending writes `HI` or `LO`, and the reserved codes are none of R58's. -/
theorem hiLoKept : Obligations.HiLoKept := by
  refine ⟨fun i s t h => ?_, fun w hop hf => ?_⟩
  · obtain ⟨o, ho, hs⟩ := exec_ending_self i s
    rw [hs] at h
    exact ⟨fun hi => ho.hi_eq hi h, fun hl => ho.lo_eq hl h⟩
  · have hgap : ∀ n ∈ [20, 21, 22, 23, 28, 29, 30, 31], n ∉ supportedFuncts := by decide
    rw [decodeWord_eq_none_iff, if_pos hop]
    exact hgap _ hf

/-- Settles O13: both divisions end in the same operation at a zero divisor. -/
theorem divideByZeroIsFree : Obligations.DivideByZeroIsFree :=
  fun rs _ _ hzero => ⟨completes_execDiv_zero rs hzero, completes_execDivu_zero rs hzero⟩

/-- Settles O14: the exact quotient 2^31 narrows to -2^31, and the remainder is 0. -/
theorem divideOverflow : Obligations.DivideOverflow := by
  intro rs rt s hrs hrt
  have hne : s.reg rt ≠ 0#32 := by rw [hrt]; decide
  have hq : (s.reg rs).sdiv (s.reg rt) = 0x80000000#32 := by rw [hrs, hrt]; decide
  have hr : (s.reg rs).srem (s.reg rt) = 0#32 := by rw [hrs, hrt]; decide
  rw [← hq, ← hr]
  exact completes_execDiv rs hne

end Sys2Proof.Machine

/-! SUPPORT. The family of 46_alu_reg.md: the exact signed results against the wrapping ones and the overflow bits, and
how the trapping instructions end. -/

namespace Sys2Proof.Machine

/-! ### Sums and differences as words (R122, R124, R132) -/

theorem ofInt_sub (m n : Int) : BitVec.ofInt 32 (m - n) = BitVec.ofInt 32 m - BitVec.ofInt 32 n := by
  rw [Int.sub_eq_add_neg, BitVec.ofInt_add, BitVec.ofInt_neg, BitVec.sub_eq_add_neg]

section
variable (a b : Word)

theorem ofInt_toInt_add : BitVec.ofInt 32 (a.toInt + b.toInt) = a + b := by
  rw [BitVec.ofInt_add, BitVec.ofInt_toInt, BitVec.ofInt_toInt]

theorem ofInt_toInt_sub : BitVec.ofInt 32 (a.toInt - b.toInt) = a - b := by
  rw [ofInt_sub, BitVec.ofInt_toInt, BitVec.ofInt_toInt]

theorem ofNat_toNat_add : BitVec.ofNat 32 (a.toNat + b.toNat) = a + b := by
  rw [BitVec.ofNat_add, BitVec.ofNat_toNat, BitVec.ofNat_toNat, BitVec.setWidth_eq, BitVec.setWidth_eq]

theorem ofInt_toNat_sub : BitVec.ofInt 32 ((a.toNat : Int) - b.toNat) = a - b := by
  rw [ofInt_sub, BitVec.ofInt_natCast, BitVec.ofInt_natCast, BitVec.ofNat_toNat, BitVec.ofNat_toNat,
    BitVec.setWidth_eq, BitVec.setWidth_eq]

/-- Sign extension keeps the signed reading (R131 for `addi`). -/
theorem toInt_signExtended (imm : Half) : (signExtended imm).toInt = imm.toInt :=
  BitVec.toInt_signExtend_of_le (by decide)

/-! ### The bit tests are the range checks (R131) -/

theorem addOverflowBit_iff : addOverflowBit a b (a + b) = true ↔
    a.toInt + b.toInt < -2147483648 ∨ 2147483647 < a.toInt + b.toInt := by
  have hbits : addOverflowBit a b (a + b) = a.saddOverflow b := (BitVec.saddOverflow_eq a b).symm
  rw [hbits, BitVec.saddOverflow, Bool.or_eq_true, decide_eq_true_iff, decide_eq_true_iff]
  omega

theorem subOverflowBit_iff : subOverflowBit a b (a - b) = true ↔
    a.toInt - b.toInt < -2147483648 ∨ 2147483647 < a.toInt - b.toInt := by
  have hbits : subOverflowBit a b (a - b) = a.ssubOverflow b := by
    rw [BitVec.ssubOverflow_eq, subOverflowBit]
    cases a.msb <;> cases b.msb <;> cases (a - b).msb <;> rfl
  rw [hbits, BitVec.ssubOverflow, Bool.or_eq_true, decide_eq_true_iff, decide_eq_true_iff]
  omega

/-! ### Comparisons as words (R129, R130) -/

theorem boolWord_lessSigned : boolWord (lessSigned a b) = if a.toInt < b.toInt then 1#32 else 0#32 :=
  if_congr (lessSigned_iff a b) rfl rfl

theorem boolWord_lessUnsigned : boolWord (lessUnsigned a b) = if a.toNat < b.toNat then 1#32 else 0#32 :=
  if_congr (lessUnsigned_iff a b) rfl rfl

end

/-! ### How the trapping instructions end (R121, R123) -/

section
variable (rd : RegIdx) (n : Int) (s : State)

theorem completes_trappingWrite : Completes (trappingWrite rd n s) s
    (if 2147483647 < n ∨ n < -2147483648 then { After.same s with code := 1#32 }
     else { After.same s with regs := written s rd (BitVec.ofInt 32 n) }) := by
  rw [trappingWrite_eq]
  split
  next hfit => rw [if_neg (by omega)]; exact completes_writeBack rd _ s
  next hfit => rw [if_pos (by omega)]; exact completes_raiseTrap s

/-- The result code by any test that decides the overflow. -/
theorem trappingWrite_code_of_iff {c : Bool} (h : c = true ↔ n < -2147483648 ∨ 2147483647 < n) :
    ∃ t, trappingWrite rd n s = .next t ∧ t.result = some (if c then 1#32 else 0#32) := by
  rw [if_congr h rfl rfl]
  exact trappingWrite_code rd n s

/-- A trapping write is the plain write of the narrowed result, or a bare trap. -/
theorem trappingWrite_eq_writeBack_or {v : Word} (h : BitVec.ofInt 32 n = v) :
    trappingWrite rd n s = writeBack rd v s ∨ trappingWrite rd n s = .next { s with result := some 1#32 } := by
  rw [trappingWrite_eq, h]
  split
  · exact .inl rfl
  · exact .inr rfl

end

/-! ### The obligations -/

/-- Settles O18: both are a trapping write of the exact result, and their rows select them. -/
theorem addSubTrapping : Obligations.AddSubTrapping := by
  refine ⟨fun rd rs rt s => ⟨?_, ?_⟩, ?_, ?_⟩
  · exact ⟨_, rfl, completes_trappingWrite rd _ s⟩
  · exact ⟨_, rfl, completes_trappingWrite rd _ s⟩
  · exact selects_of_selectR 32 rfl (fun _ => rfl) (fun _ => rfl) (fun _ => rfl)
  · exact selects_of_selectR 34 rfl (fun _ => rfl) (fun _ => rfl) (fun _ => rfl)

/-- Settles O19: the bit tests decide the range checks; for `addi` the immediate reads the same once extended. -/
theorem overflowBitTest : Obligations.OverflowBitTest := by
  intro rd rs rt imm s
  have himm := addOverflowBit_iff (s.reg rs) (signExtended imm)
  rw [toInt_signExtended] at himm
  exact ⟨trappingWrite_code_of_iff rd _ s (addOverflowBit_iff _ _),
    trappingWrite_code_of_iff rd _ s (subOverflowBit_iff _ _), trappingWrite_code_of_iff rt _ s himm⟩

/-- Settles O20: the operators on words are the sum and difference modulo 2^32, and the rows select them. -/
theorem addSubWrapping : Obligations.AddSubWrapping := by
  refine ⟨fun rd rs rt s => ⟨?_, ?_⟩, ?_, ?_⟩
  · rw [ofNat_toNat_add]
    exact completes_writeBack rd _ s
  · rw [ofInt_toNat_sub]
    exact completes_writeBack rd _ s
  · exact selects_of_selectR 33 rfl (fun _ => rfl) (fun _ => rfl) (fun _ => rfl)
  · exact selects_of_selectR 35 rfl (fun _ => rfl) (fun _ => rfl) (fun _ => rfl)

/-- Settles O21: the exact result, narrowed, is the wrapping one. -/
theorem trappingAgreesWithWrapping : Obligations.TrappingAgreesWithWrapping := by
  intro rd rs rt imm s
  have himm := ofInt_toInt_add (s.reg rs) (signExtended imm)
  rw [toInt_signExtended] at himm
  exact ⟨trappingWrite_eq_writeBack_or rd _ s (ofInt_toInt_add _ _),
    trappingWrite_eq_writeBack_or rd _ s (ofInt_toInt_sub _ _), trappingWrite_eq_writeBack_or rt _ s himm⟩

/-- Settles O22: each writes its operator's word, whose bits are the operator's on the bits. -/
theorem bitwiseLogic : Obligations.BitwiseLogic := by
  refine ⟨fun rd rs rt s => ⟨_, _, _, _, fun i hi => ⟨BitVec.getLsbD_and, BitVec.getLsbD_or, BitVec.getLsbD_xor, ?_⟩,
    completes_writeBack rd _ s, completes_writeBack rd _ s, completes_writeBack rd _ s, completes_writeBack rd _ s⟩,
    ?_, ?_, ?_, ?_⟩
  · rw [BitVec.getLsbD_not, BitVec.getLsbD_or, decide_eq_true hi, Bool.true_and]
  · exact selects_of_selectR 36 rfl (fun _ => rfl) (fun _ => rfl) (fun _ => rfl)
  · exact selects_of_selectR 37 rfl (fun _ => rfl) (fun _ => rfl) (fun _ => rfl)
  · exact selects_of_selectR 38 rfl (fun _ => rfl) (fun _ => rfl) (fun _ => rfl)
  · exact selects_of_selectR 39 rfl (fun _ => rfl) (fun _ => rfl) (fun _ => rfl)

/-- Settles O23: each writes the word of its comparison, and its row selects it. -/
theorem setLessThan : Obligations.SetLessThan := by
  refine ⟨fun rd rs rt s => ⟨?_, ?_⟩, ?_, ?_⟩
  · rw [← boolWord_lessSigned]
    exact completes_writeBack rd _ s
  · rw [← boolWord_lessUnsigned]
    exact completes_writeBack rd _ s
  · exact selects_of_selectR 42 rfl (fun _ => rfl) (fun _ => rfl) (fun _ => rfl)
  · exact selects_of_selectR 43 rfl (fun _ => rfl) (fun _ => rfl) (fun _ => rfl)

end Sys2Proof.Machine

/-! SUPPORT. The family of 47_cond_trap.md: a trap under a condition, and the complements of the two orders. -/

namespace Sys2Proof.Machine

/-! ### The conditions (R135, R136, R139, R140) -/

section
variable (a b : Word)

theorem not_lessSigned_iff : (!lessSigned a b) = true ↔ a.toInt ≥ b.toInt := by
  rw [Bool.not_eq_true', ← Bool.not_eq_true, lessSigned_iff, Int.not_lt]

theorem not_lessUnsigned_iff : (!lessUnsigned a b) = true ↔ a.toNat ≥ b.toNat := by
  rw [Bool.not_eq_true', ← Bool.not_eq_true, lessUnsigned_iff, Nat.not_lt]

theorem beq_iff_toNat_eq : (a == b) = true ↔ a.toNat = b.toNat :=
  beq_iff_eq.trans BitVec.toNat_inj.symm

theorem bne_iff_toNat_ne : (a != b) = true ↔ a.toNat ≠ b.toNat :=
  bne_iff_ne.trans BitVec.toNat_inj.not.symm

end

/-! ### How a conditional trap ends (R134) -/

/-- The code says whether the condition held; nothing else changes. -/
theorem completes_trapIf {c : Bool} {p : Prop} [Decidable p] (h : c = true ↔ p) (s : State) :
    Completes (trapIf c s) s { After.same s with code := if p then 1#32 else 0#32 } := by
  rw [trapIf_eq, if_congr h rfl rfl]
  exact completes_complete_same s _

/-! ### The obligation -/

/-- Settles O24: each is a trap under a test that decides its comparison, and its row selects it. -/
theorem conditionalTraps : Obligations.ConditionalTraps := by
  refine ⟨fun rs rt s => ⟨?_, ?_, ?_, ?_, ?_, ?_⟩, ?_, ?_, ?_, ?_, ?_, ?_⟩
  · exact completes_trapIf (not_lessSigned_iff _ _) s
  · exact completes_trapIf (not_lessUnsigned_iff _ _) s
  · exact completes_trapIf (lessSigned_iff _ _) s
  · exact completes_trapIf (lessUnsigned_iff _ _) s
  · exact completes_trapIf (beq_iff_toNat_eq _ _) s
  · exact completes_trapIf (bne_iff_toNat_ne _ _) s
  · exact selects_of_selectR 48 rfl (fun _ => rfl) (fun _ => rfl) (fun _ => rfl)
  · exact selects_of_selectR 49 rfl (fun _ => rfl) (fun _ => rfl) (fun _ => rfl)
  · exact selects_of_selectR 50 rfl (fun _ => rfl) (fun _ => rfl) (fun _ => rfl)
  · exact selects_of_selectR 51 rfl (fun _ => rfl) (fun _ => rfl) (fun _ => rfl)
  · exact selects_of_selectR 52 rfl (fun _ => rfl) (fun _ => rfl) (fun _ => rfl)
  · exact selects_of_selectR 54 rfl (fun _ => rfl) (fun _ => rfl) (fun _ => rfl)

end Sys2Proof.Machine

/-! SUPPORT. The family of 48_alu_imm.md: the immediates as numbers and bit by bit, and the rows of the I-type
instructions. -/

namespace Sys2Proof.Machine

/-! ### The words of an I-type row -/

/-- A word has an I-type row's pattern exactly when it decodes to the instruction that the row's opcode selects on the
word's fields (R57, R59). -/
theorem selects_of_selectI {pattern : Word} {f : Word → Instr} (opcode : Six) (hz : opcode ≠ 0#6)
    (hp : packI opcode 0 0 0 = pattern) (hf : ∀ w, selectI opcode (rsOf w) (rtOf w) (immOf w) = some (f w))
    (hmask : ∀ w, tableMask (f w) = 0xFC000000) (hmatch : ∀ w, tableMatch (f w) = pattern) :
    Selects 0xFC000000 pattern f := by
  refine fun w => ⟨fun h => ?_, fun h => ?_⟩
  · have hop : opcodeOf w = opcode := (and_maskI_eq_iff w opcode).1 (h.trans hp.symm)
    rw [decodeWord_of_opcode_ne_zero (hop.trans_ne hz), hop, hf]
  · rw [← hmask w, ← hmatch w]
    exact and_tableMask_of_decodeWord h

/-! ### The widened immediates (R55) -/

/-- Sign extension as an unsigned number. -/
theorem toNat_signExtended (imm : Half) :
    (signExtended imm).toNat = imm.toNat + if imm.getLsbD 15 then 0xFFFF0000 else 0 := by
  rw [signExtended, BitVec.toNat_signExtend, BitVec.toNat_setWidth_of_le (by decide), BitVec.msb_eq_getLsbD_last]

theorem ofNat_toNat_add_signExtended (v : Word) (imm : Half) :
    BitVec.ofNat 32 (v.toNat + (imm.toNat + if imm.getLsbD 15 then 0xFFFF0000 else 0)) = v + signExtended imm := by
  rw [← toNat_signExtended, ofNat_toNat_add]

/-- Bits 15:0 are the immediate's, bits 31:16 are 0. -/
theorem getLsbD_zeroExtended (imm : Half) {i : Nat} (hi : i < 32) :
    (zeroExtended imm).getLsbD i = (decide (i < 16) && imm.getLsbD i) := by
  rw [zeroExtended, BitVec.getLsbD_setWidth]
  by_cases h : i < 16
  · simp [h, hi]
  · simp [h, BitVec.getLsbD_of_ge imm i (by omega)]

/-- `lui`'s word as a number: the immediate's half above, the register's below (R152). -/
theorem upperImmediate_eq_ofNat (imm : Half) (v : Word) :
    upperImmediate imm v = BitVec.ofNat 32 (imm.toNat * 65536 + v.toNat % 65536) := by
  have hlow : (v.extractLsb' 0 16).toNat = v.toNat % 65536 := by simp
  have hlt : imm.toNat * 65536 + v.toNat % 65536 < 2 ^ 32 := by omega
  apply BitVec.eq_of_toNat_eq
  rw [upperImmediate, BitVec.toNat_append, ← Nat.shiftLeft_add_eq_or_of_lt (BitVec.isLt _), Nat.shiftLeft_eq, hlow,
    BitVec.toNat_ofNat, Nat.mod_eq_of_lt hlt]

/-! ### The obligations -/

/-- Settles O25: `addi` is a trapping write of the exact sum, `addiu` writes the wrapping one. -/
theorem addImmediate : Obligations.AddImmediate := by
  refine ⟨fun rt rs imm s => ⟨⟨_, rfl, completes_trappingWrite rt _ s⟩, ?_⟩, ?_, ?_⟩
  · rw [ofNat_toNat_add_signExtended]
    exact completes_writeBack rt _ s
  · exact selects_of_selectI 8 (by decide) rfl (fun _ => rfl) (fun _ => rfl) (fun _ => rfl)
  · exact selects_of_selectI 9 (by decide) rfl (fun _ => rfl) (fun _ => rfl) (fun _ => rfl)

/-- Settles O26: sign extension keeps the signed reading, so the comparison is that of the immediate itself. -/
theorem setLessThanImmediate : Obligations.SetLessThanImmediate := by
  refine ⟨fun rt rs imm s => ?_, ?_⟩
  · rw [← toInt_signExtended, ← boolWord_lessSigned]
    exact completes_writeBack rt _ s
  · exact selects_of_selectI 10 (by decide) rfl (fun _ => rfl) (fun _ => rfl) (fun _ => rfl)

/-- Settles O27: the comparison is with the sign-extended immediate read as an unsigned number. -/
theorem setLessThanImmediateUnsigned : Obligations.SetLessThanImmediateUnsigned := by
  refine ⟨fun rt rs imm s => ?_, ?_⟩
  · rw [← toNat_signExtended, ← boolWord_lessUnsigned]
    exact completes_writeBack rt _ s
  · exact selects_of_selectI 11 (by decide) rfl (fun _ => rfl) (fun _ => rfl) (fun _ => rfl)

/-- Settles O28: each writes its operator's word, whose upper half meets zeros. -/
theorem logicImmediate : Obligations.LogicImmediate := by
  refine ⟨fun rt rs imm s => ⟨_, _, _, fun i hi => ?_, completes_writeBack rt _ s, completes_writeBack rt _ s,
    completes_writeBack rt _ s⟩, ?_, ?_, ?_⟩
  · rw [BitVec.getLsbD_and, BitVec.getLsbD_or, BitVec.getLsbD_xor, getLsbD_zeroExtended imm hi]
    by_cases h : i < 16 <;> simp [h]
  · exact selects_of_selectI 12 (by decide) rfl (fun _ => rfl) (fun _ => rfl) (fun _ => rfl)
  · exact selects_of_selectI 13 (by decide) rfl (fun _ => rfl) (fun _ => rfl) (fun _ => rfl)
  · exact selects_of_selectI 14 (by decide) rfl (fun _ => rfl) (fun _ => rfl) (fun _ => rfl)

/-- Settles O29: the written word is the two halves as one number, and the row selects it. -/
theorem loadUpperKeepsLow : Obligations.LoadUpperKeepsLow := by
  refine ⟨fun rt rs imm s => ?_, ?_⟩
  · rw [← upperImmediate_eq_ofNat]
    exact completes_writeBack rt _ s
  · exact selects_of_selectI 15 (by decide) rfl (fun _ => rfl) (fun _ => rfl) (fun _ => rfl)

end Sys2Proof.Machine

/-! SUPPORT. The family of 49_host_interface.md: what each host operation answers and leaves, and the invariant along
any sequence of them. -/

namespace Sys2Proof.Machine

/-! ### The step as a host operation (R165) -/

section
variable {s t : State}

theorem perform_step_of_next {c : Word} (h : step s = .next t) (hc : t.result = some c) :
    s.perform .step = (.code c, t) := by
  simp only [State.perform, h, replyStepped_next, hc, Option.getD_some]

theorem perform_step_of_fault {e : Fault} (h : step s = .fault e) : s.perform .step = (.error e, s) := by
  simp only [State.perform, h, replyStepped_fault]

end

/-- `StepOutcomes` without the conditions: a step faults, or completes with a result code. -/
theorem step_next_or_fault (s : State) :
    (∃ t c, step s = .next t ∧ t.result = some c) ∨ ∃ e, step s = .fault e := by
  have h := stepOutcomes s
  split_ifs at h
  · exact .inr ⟨_, h⟩
  · exact .inr ⟨_, h⟩
  · exact .inl h

/-! ### The register accessors (R158, R159, R169) -/

section
variable {n : Nat} (s : State) (v : Word)

theorem perform_setRegister (h : n < 32) :
    s.perform (.setRegister n v) = (.done, s.setReg (BitVec.ofNat 5 n) v) := by
  simp only [State.perform, setRegister, if_pos h]

theorem perform_setRegister_of_ge (h : ¬ n < 32) :
    s.perform (.setRegister n v) = (.error (.registerIndexOutOfRange n), s) := by
  simp only [State.perform, setRegister, if_neg h]

theorem perform_getRegister (h : n < 32) :
    s.perform (.getRegister n) = (.word (s.reg (BitVec.ofNat 5 n)), s) := by
  simp only [State.perform, getRegister, if_pos h]

theorem perform_getRegister_of_ge (h : ¬ n < 32) :
    s.perform (.getRegister n) = (.error (.registerIndexOutOfRange n), s) := by
  simp only [State.perform, getRegister, if_neg h]

end

/-- Two indices below 32 name the same register exactly when they are equal. -/
theorem ofNat_regIdx_inj {m n : Nat} (hm : m < 32) (hn : n < 32) :
    BitVec.ofNat 5 m = BitVec.ofNat 5 n ↔ m = n := by
  rw [← BitVec.toNat_inj, BitVec.toNat_ofNat, BitVec.toNat_ofNat, Nat.mod_eq_of_lt hm, Nat.mod_eq_of_lt hn]

/-- What a register reads after `set_register`, whether the index was accepted or not. -/
theorem reg_perform_setRegister (s : State) (n : Nat) (v : Word) {m : Nat} (hm : m < 32) :
    (s.perform (.setRegister n v)).2.reg (BitVec.ofNat 5 m) =
      if m = 0 then 0#32 else if m = n then v else s.reg (BitVec.ofNat 5 m) := by
  by_cases hm0 : m = 0
  · subst hm0
    exact State.reg_zero _
  rw [if_neg hm0]
  by_cases hn : n < 32
  · have hne : BitVec.ofNat 5 m ≠ 0#5 := (ofNat_regIdx_inj hm (by decide)).not.2 hm0
    rw [perform_setRegister s v hn, s.reg_setReg]
    exact if_congr ((and_iff_left_of_imp (· ▸ hne)).trans (ofNat_regIdx_inj hm hn)) rfl rfl
  · rw [perform_setRegister_of_ge s v hn, if_neg (by omega)]

/-! ### The invariant (R39, R192) -/

theorem State.Inv.withMem {s : State} {m : Memory} (hs : s.Inv) (hwf : m.wf) (hm : ∀ c ∈ m, c.1 < s.memCapacity) :
    State.Inv { s with mem := m } := by
  obtain ⟨hcap, -, -⟩ := hs
  exact ⟨hcap, hwf, hm⟩

/-- A byte stored below the capacity keeps the invariant. -/
theorem State.Inv.write {s : State} (hs : s.Inv) {k : Nat} (h : k + 1 ≤ s.memCapacity) (b : Byte) :
    State.Inv { s with mem := s.mem.write k b } := by
  have ⟨_, hwf, hlt⟩ := hs
  refine hs.withMem (Memory.write_wf hwf k b) fun c hc => ?_
  obtain hc | ⟨rfl, -⟩ := Memory.mem_write hc
  · exact hlt c hc
  · exact h

/-- A word stored below the capacity keeps the invariant. -/
theorem State.Inv.writeWord {s : State} (hs : s.Inv) {k : Nat} (h : k + 4 ≤ s.memCapacity) (v : Word) :
    State.Inv { s with mem := s.mem.writeWord k v } := by
  have ⟨_, hwf, hlt⟩ := hs
  refine hs.withMem (Memory.writeWord_wf hwf k v) fun c hc => ?_
  obtain hc | hc := Memory.mem_writeWord hc
  · exact hlt c hc
  · exact Nat.lt_of_lt_of_le hc h

/-- One host operation, refused by an error or not, keeps the invariant and the capacity. -/
theorem perform_keeps_inv {s : State} (hs : s.Inv) (op : HostOp) :
    (s.perform op).2.Inv ∧ (s.perform op).2.memCapacity = s.memCapacity := by
  cases op with
  | getRegister | loadByte | loadWord => exact ⟨hs, rfl⟩
  | setRegister n v =>
    by_cases hn : n < 32
    · rw [perform_setRegister s v hn]
      exact ⟨hs.congr (s.setReg_mem _ v) (s.setReg_memCapacity _ v), s.setReg_memCapacity _ v⟩
    · rw [perform_setRegister_of_ge s v hn]
      exact ⟨hs, rfl⟩
  | storeByte b addr =>
    by_cases h : addr.toNat + 1 ≤ s.memCapacity
    · rw [perform_storeByte h b]
      exact ⟨hs.write h b, rfl⟩
    · obtain ⟨hbyte, -⟩ := outOfRangeAccess s addr 0 b
      obtain ⟨-, hstore⟩ := hbyte (Nat.not_le.1 h)
      rw [hstore]
      exact ⟨hs, rfl⟩
  | storeWord v addr =>
    by_cases h : addr.toNat + 4 ≤ s.memCapacity
    · rw [perform_storeWord h v]
      exact ⟨hs.writeWord h v, rfl⟩
    · obtain ⟨-, hword⟩ := outOfRangeAccess s addr v 0
      obtain ⟨-, hstore⟩ := hword (Nat.not_le.1 h)
      rw [hstore]
      exact ⟨hs, rfl⟩
  | step =>
    obtain ⟨t, c, ht, hc⟩ | ⟨e, he⟩ := step_next_or_fault s
    · obtain ⟨hinv, hk, -⟩ := stepKeepsInvariant s t hs ht
      rw [perform_step_of_next ht hc]
      exact ⟨hinv, hk⟩
    · rw [perform_step_of_fault he]
      exact ⟨hs, rfl⟩

/-! ### The obligations -/

/-- Settles O44, by induction on the operations; `perform_keeps_inv` is the step. -/
theorem hostRunKeepsInvariant : Obligations.HostRunKeepsInvariant := by
  intro ops
  induction ops with
  | nil => exact fun s hs => ⟨hs, rfl, rfl⟩
  | cons op ops ih =>
    intro s hs
    obtain ⟨hinv, hcap⟩ := perform_keeps_inv hs op
    obtain ⟨hinv', hcap', hlen⟩ := ih (s.perform op).2 hinv
    exact ⟨hinv', hcap'.trans hcap, congrArg (· + 1) hlen⟩

/-- Settles O53: each accessor tests its index first, and `reg_perform_setRegister` says what is read back. -/
theorem registerAccessors : Obligations.RegisterAccessors := by
  refine fun s n m v => ⟨?_, ?_⟩
  · split
    next hn => rw [perform_setRegister s v hn]
    next hn => exact perform_setRegister_of_ge s v hn
  · split
    next hm => rw [perform_getRegister _ hm, reg_perform_setRegister s n v hm]
    next hm => exact perform_getRegister_of_ge s hm

/-- Settles O54: the reply is that of the step's outcome; after a fault the second step starts from the same state. -/
theorem hostStep : Obligations.HostStep := by
  intro s
  obtain ⟨t, c, ht, hc⟩ | ⟨e, he⟩ := step_next_or_fault s
  · exact .inl ⟨t, c, ht, hc, perform_step_of_next ht hc⟩
  · have hreply := perform_step_of_fault he
    exact .inr ⟨e, he, hreply, by simp only [performAll_cons, performAll_nil, hreply]⟩

end Sys2Proof.Machine

/-! SUPPORT. The family of 60_exceptions.md: what a trap leaves. -/

namespace Sys2Proof.Machine

/-! ### Endings with code 1 -/

section
variable {i : Instr} {o : State → Host.Outcome State Fault Refusal} {s t : State}

/-- An ending that gives a code other than 0 does nothing but give it: every other ending completes with code 0. -/
theorem Ending.eq_setResult {c : Word} (ho : Ending i o) (h : o s = .next t) (hr : t.result = some c)
    (hc : c ≠ 0#32) : t = s.setResult c := by
  cases ho with
  | code => cases h; cases hr; rfl
  | write | hi | lo | hiLo | divZero | jump | link => cases h; cases hr; exact absurd rfl hc

/-- Without `break`, 0 and 1 are the only codes (R170 to R173). -/
theorem Ending.code_zero_or_one (ho : Ending i o) (hb : isBreak i = false) (h : o s = .next t) :
    t.result = some 0#32 ∨ t.result = some 1#32 := by
  cases ho with
  | code c hcode =>
    cases h
    obtain rfl | ⟨rfl, -⟩ | hbreak := hcode
    · exact .inl rfl
    · exact .inr rfl
    · simp [hb] at hbreak
  | write | hi | lo | hiLo | divZero | jump | link => cases h; exact .inl rfl

end

theorem isBreak_of_canTrap {i : Instr} (h : canTrap i = true) : isBreak i = false := by
  cases i with
  | brk => cases h
  | _ => rfl

/-! ### The obligation -/

/-- Settles O33: a code other than 0 is all that its ending leaves, here in the advanced state. -/
theorem trapChangesOnlyPc : Obligations.TrapChangesOnlyPc := by
  intro i s t hi htrap h
  obtain ⟨j, -, hj, hexec⟩ := step_eq_next h
  obtain rfl : i = j := Option.some.inj (hi.symm.trans hj)
  obtain ⟨o, ho, hs⟩ := exec_ending_self i s.advance
  have hend : o s.advance = .next t := hs.symm.trans hexec
  exact ⟨fun hr => ho.eq_setResult hend hr (by decide), ho.code_zero_or_one (isBreak_of_canTrap htrap) hend⟩

end Sys2Proof.Machine

/-! SUPPORT. The family of 70_reset_and_hazards.md: when a machine is constructed, and what lies in its memory. -/

namespace Sys2Proof.Machine

/-! ### The loaded program (R191) -/

/-- A program of `n` words loaded from `k` on lists no byte at or above `k + 4 n` that was not listed before. -/
theorem Memory.mem_load {m : Memory} {k : Nat} {ws : List Word} {c : Host.Cell} (h : c ∈ m.load k ws) :
    c ∈ m ∨ c.1 < k + 4 * ws.length := by
  induction ws generalizing m k with
  | nil => exact .inl h
  | cons w ws ih =>
    rw [List.length_cons]
    obtain hc | hc := ih h
    · exact (Memory.mem_writeWord hc).imp_right (by omega)
    · exact .inr (by omega)

/-- A byte outside the loaded program reads as before. -/
theorem Memory.read_load_outside {m : Memory} (hwf : m.wf) {k j : Nat} {ws : List Word}
    (hj : j < k ∨ k + 4 * ws.length ≤ j) : (m.load k ws).read j = m.read j := by
  induction ws generalizing m k with
  | nil => rfl
  | cons w ws ih =>
    rw [List.length_cons] at hj
    rw [Memory.load, ih (Memory.writeWord_wf hwf k w) (by omega), Memory.read_writeWord hwf, if_neg (by omega)]

/-- Byte `d` of word `n` of the loaded program, at its address. -/
theorem Memory.read_load {m : Memory} (hwf : m.wf) (k : Nat) {ws : List Word} {n : Nat} (hn : n < ws.length) {d : Nat}
    (hd : d < 4) : (m.load k ws).read (k + 4 * n + d) = byteOfWord ws[n] d := by
  induction ws generalizing m k n with
  | nil => cases hn
  | cons w ws ih =>
    have hwf' := Memory.writeWord_wf hwf k w
    rw [Memory.load]
    cases n with
    | zero =>
      rw [Memory.read_load_outside hwf' (by omega), Memory.read_writeWord hwf, if_pos (by omega),
        show k + 4 * 0 + d - k = d by omega]
      rfl
    | succ n =>
      rw [show k + 4 * (n + 1) + d = k + 4 + 4 * n + d by omega]
      exact ih hwf' (k + 4) (Nat.lt_of_succ_lt_succ hn)

/-! ### Construction (R192) -/

/-- The machine that construction gives when it gives one. -/
def constructed (capacity : Nat) (program : List Word) : State :=
  { State.reset with memCapacity := capacity, mem := Memory.load [] 0 program }

theorem constructionWellFormed_iff (capacity : Nat) (program : List Word) :
    constructionWellFormed capacity program = true ↔ capacity ≤ 4294967296 ∧ 4 * program.length ≤ capacity := by
  rw [constructionWellFormed, Bool.and_eq_true, decide_eq_true_iff, decide_eq_true_iff, Config.maxCapacity]

theorem construct_eq (capacity : Nat) (program : List Word) : State.construct capacity program =
    if capacity ≤ 4294967296 ∧ 4 * program.length ≤ capacity then some (constructed capacity program) else none :=
  if_congr (constructionWellFormed_iff capacity program) rfl rfl

theorem constructed_inv {capacity : Nat} {program : List Word} (hcap : capacity ≤ 4294967296)
    (hfit : 4 * program.length ≤ capacity) : (constructed capacity program).Inv := by
  refine ⟨hcap, Memory.load_wf State.reset_mem_wf 0 program, fun c hc => ?_⟩
  obtain hc | hc := Memory.mem_load hc
  · cases hc
  · show c.1 < capacity
    omega

/-! ### The obligations -/

/-- Settles O46: the refusal is the failure of the test, and the loaded program stays below its own length. -/
theorem constructionInvariant : Obligations.ConstructionInvariant := by
  intro capacity program
  rw [construct_eq]
  split
  next hok =>
    obtain ⟨hcap, hfit⟩ := hok
    refine ⟨⟨nofun, by omega⟩, ?_⟩
    rintro s ⟨⟩
    exact ⟨constructed_inv hcap hfit, rfl⟩
  next hbad => exact ⟨⟨fun _ => by omega, fun _ => rfl⟩, nofun⟩

/-- Settles O48: each byte of the program is `Memory.read_load`'s, and beyond it the empty memory shows. -/
theorem programLoad : Obligations.ProgramLoad := by
  refine fun capacity program hfit hcap => ⟨constructed capacity program, ?_, fun k hk => ?_, fun a ha => ?_⟩
  · rw [construct_eq, if_pos ⟨hcap, hfit⟩]
  · have hbyte (d : Nat) (hd : d < 4) :
        (constructed capacity program).mem.read (4 * k + d) = byteOfWord program[k] d := by
      have hread := Memory.read_load State.reset_mem_wf 0 hk hd
      rwa [Nat.zero_add] at hread
    exact ⟨hbyte 0 (by decide), hbyte 1 (by decide), hbyte 2 (by decide), hbyte 3 (by decide)⟩
  · exact Memory.read_load_outside State.reset_mem_wf (.inr (by omega))

/-- Settles O45: reset is a construction, so O46 gives its invariant. -/
theorem resetMeetsInvariant : Obligations.ResetMeetsInvariant := by
  have hconstruct : State.construct Config.maxCapacity [] = some State.reset := rfl
  obtain ⟨-, hinv⟩ := constructionInvariant Config.maxCapacity []
  obtain ⟨hreset, -⟩ := hinv State.reset hconstruct
  exact ⟨hreset, hconstruct⟩

end Sys2Proof.Machine
